-- ==== Sys2Proof/Machine/Cells.lean ====
section
/-! DEFINITION. Sparse data by key: lists of (key, value) pairs with keys strictly rising, used for memory and the stack. -/

namespace Sys2Proof.Machine

/-- The value listed under `k`. -/
def cellAt {α : Type} : List (Nat × α) → Nat → Option α
  | [], _ => none
  | c :: rest, k => if c.1 = k then some c.2 else cellAt rest k

/-- The list with `a` under `k`, at its place in the order. -/
def putCell {α : Type} : List (Nat × α) → Nat → α → List (Nat × α)
  | [], k, a => [(k, a)]
  | c :: rest, k, a =>
    if k < c.1 then (k, a) :: c :: rest
    else if k = c.1 then (k, a) :: rest
    else c :: putCell rest k a

/-- The list with nothing under `k`. -/
def dropCell {α : Type} : List (Nat × α) → Nat → List (Nat × α)
  | [], _ => []
  | c :: rest, k => if c.1 = k then rest else c :: dropCell rest k

/-- The keys rise strictly. -/
def rising {α : Type} : List (Nat × α) → Bool
  | [] => true
  | [_] => true
  | c :: d :: rest => decide (c.1 < d.1) && rising (d :: rest)

end Sys2Proof.Machine
end

