-- ==== Sys2Proof/Word.lean ====
section
/-! DEFINITION. The words of the block and the names of its fixed sizes (00_scope.md R7, R8). -/

namespace Sys2Proof

/-- An 8-bit value: a register, a timer, a memory byte, an immediate `nn` (00_scope.md R7). -/
abbrev Byte := BitVec 8

/-- A 16-bit value: an opcode, `I`, `pc`, a stack entry (00_scope.md R7). -/
abbrev Word := BitVec 16

/-- A 4-bit opcode field (30_encoding.md R81). -/
abbrev Nibble := BitVec 4

/-- A 12-bit address field `nnn` (30_encoding.md R81). -/
abbrev Addr := BitVec 12

/-- The number of a general register `V[0]` to `V[15]` (10_state.md R20), and of a key (R28). -/
abbrev Reg := Fin 16

/-- `VF`, register 15 (10_state.md R21). -/
abbrev VF : Reg := 15

end Sys2Proof
end

