-- ==== Sys2Proof/Config.lean ====
section
/-! DEFINITION. What is fixed when a block is constructed, what it is given at each step, and the free values.
The construction parameters stand in `State.params` (log entry 3), so every claim holds for all of them. -/

namespace Sys2Proof

/-- The inputs of one step (40_engine_cycle.md R110): `keys[0..15]`, where any non-zero byte means pressed;
`tick`, which decrements the timers; `rnd`, the random byte. -/
structure StepInput where
  keys : Vector Byte 16
  tick : Bool
  rnd  : Byte
  deriving DecidableEq, Repr, Inhabited

/-- The six compatibility bits `QUIRKS` (10_state.md R33). Their names are in Machine/Quirks.lean. -/
abbrev Quirks := BitVec 6

/-- The parameters of a block (00_scope.md R7): `QUIRKS`; `FONT_BASE`, with `FONT_BASE + 80 <= 0x200`;
and the 75 bytes of `FONT_DATA` after glyph 0 (glyph 0 is fixed, `Config.glyph0`). No step changes them. -/
structure Params where
  quirks   : Quirks
  fontBase : Fin 433
  fontRest : Vector Byte 75
  deriving DecidableEq, Repr

namespace Config

/-- The three presets (10_state.md R34). -/
def original : Quirks := 0x3F
/-- S-CHIP: only draw-clip is legacy (10_state.md R34). -/
def schip : Quirks := 0x20
/-- XO-CHIP: store/load, jump-offset and shift are legacy (10_state.md R34). -/
def xochip : Quirks := 0x07

/-- Glyph 0 of `FONT_DATA`, the one the source gives (00_scope.md R7). -/
def glyph0 : Vector Byte 5 := #v[0xF0, 0x90, 0x90, 0x90, 0xF0]

/-- Glyphs 1 to 7 of the default font (93_implementation_defined.md G10). PRESUMED, log entry 6. -/
def glyphs1to7 : Vector Byte 35 :=
  (#v[0x20, 0x60, 0x20, 0x20, 0x70] : Vector Byte 5) ++ (#v[0xF0, 0x10, 0xF0, 0x80, 0xF0] : Vector Byte 5)
  ++ (#v[0xF0, 0x10, 0xF0, 0x10, 0xF0] : Vector Byte 5) ++ (#v[0x90, 0x90, 0xF0, 0x10, 0x10] : Vector Byte 5)
  ++ (#v[0xF0, 0x80, 0xF0, 0x10, 0xF0] : Vector Byte 5) ++ (#v[0xF0, 0x80, 0xF0, 0x90, 0xF0] : Vector Byte 5)
  ++ (#v[0xF0, 0x10, 0x20, 0x40, 0x40] : Vector Byte 5)

/-- Glyphs 8 to F of the default font (93_implementation_defined.md G10). PRESUMED, log entry 6. -/
def glyphs8toF : Vector Byte 40 :=
  (#v[0xF0, 0x90, 0xF0, 0x90, 0xF0] : Vector Byte 5) ++ (#v[0xF0, 0x90, 0xF0, 0x10, 0xF0] : Vector Byte 5)
  ++ (#v[0xF0, 0x90, 0xF0, 0x90, 0x90] : Vector Byte 5) ++ (#v[0xE0, 0x90, 0xE0, 0x90, 0xE0] : Vector Byte 5)
  ++ (#v[0xF0, 0x80, 0x80, 0x80, 0xF0] : Vector Byte 5) ++ (#v[0xE0, 0x90, 0x90, 0x90, 0xE0] : Vector Byte 5)
  ++ (#v[0xF0, 0x80, 0xF0, 0x80, 0xF0] : Vector Byte 5) ++ (#v[0xF0, 0x80, 0xF0, 0x80, 0x80] : Vector Byte 5)

/-- `FONT_BASE` of the block that `State.reset` constructs: OPEN in the spec (00_scope.md R7), so a free value.
DESIGN CHOICE, safe: log entry 5. -/
opaque fontBase : Fin 433

/-- The parameters of the block that `State.reset` constructs. `QUIRKS` has no default in the spec
(10_state.md R33): the preset ORIGINAL is a DESIGN CHOICE, unsafe, log entry 4. -/
def params : Params := { quirks := original, fontBase := fontBase, fontRest := glyphs1to7 ++ glyphs8toF }

/-- The inputs of step number `n` where `State.inputs` lists none: a free value, since the host may supply any
keys, tick and random byte (40_engine_cycle.md R110; 93_implementation_defined.md U10, U11). Log entry 2. -/
opaque freeInput : Nat → StepInput

/-- What entry `k` of the stack holds before any push to it: a free value (10_state.md R24, "unspecified";
93_implementation_defined.md U9, "any value"). Log entry 10. -/
opaque freeStackEntry : Nat → Word

end Config

end Sys2Proof
end

