-- ==== Sys2Proof/Machine/State.lean ====
section
/-! DEFINITION. The state of the block, as plain data (10_state.md; INVENTORY.md lists every field), and its reset. -/

namespace Sys2Proof.Machine

/-- The engine mode (10_state.md R31). -/
inductive Mode where
  | ready
  | waitingForKey
  deriving DecidableEq, Repr

/-- A location whose written mark the block tracks (10_state.md R35): what `UninitializedRead` records. -/
inductive Location where
  | v (x : Reg)
  | index
  | mem (a : Nat)
  deriving DecidableEq, Repr

/-- The reasons of the spec's faults, with the information each records (60_exceptions.md R300). Each is taken as the
spec says (40_engine_cycle.md R118), a next state that holds the record: `State.takeFault`. -/
inductive FaultReason where
  /-- Code 1. Raised by decode for a word that misses the dispatch table. -/
  | unimplemented (op : Word)
  /-- Code 2. Raised by CALL with `SP = 255`. -/
  | stackOverflow (sp : Byte)
  /-- Code 3. Raised by RET with `SP = 0`. -/
  | stackUnderflow (sp : Byte)
  /-- Code 4. Raised by DXYN, FX33, FX55, FX65 for a data address above 0xFFF. -/
  | memOutOfRange (a : Nat)
  /-- Code 5. Raised by the fetch with `pc + 1 > 0xFFF`. -/
  | fetchOutOfRange (pc : Word)
  /-- Code 6. Raised by EX9E, EXA1 for `V[x] > 15`. -/
  | keyIndexOutOfRange (k : Byte)
  /-- Code 7. Raised by a read of a location never written since construction. -/
  | uninitializedRead (l : Location)
  deriving DecidableEq, Repr

/-- The fault record `Fault(reason, fault_pc, fault_op)` (10_state.md R32). -/
structure FaultRecord where
  reason : FaultReason
  /-- `pc` at the start of the faulting step -/
  pc     : Word
  /-- the fetched opcode, if one was fetched -/
  op     : Option Word
  deriving DecidableEq, Repr

/-- Why the model's machine has no step. -/
inductive Fault where
  /-- Raised by `step` in a state whose fault record is set: the block takes no further step (40_engine_cycle.md R111).
  Safe: the block is stuck for good, so no run is lost. -/
  | halted (record : FaultRecord)
  deriving DecidableEq, Repr

/-- Why the model gives no meaning. -/
inductive Refusal where
  /-- Raised by `exec` for an instruction that has no meaning yet. Safe. No arm raises it. -/
  | notModelled (mnemonic : String)
  deriving DecidableEq, Repr

/-- The display: 32 rows of 64 cells, a cell true when it is 1 (10_state.md R27). -/
abbrev Display := Vector (Vector Bool 64) 32

/-- Memory (20_memory.md R60) as the cells that differ from what an unlisted address reads as (Machine/Memory.lean),
addresses strictly rising. -/
abbrev Memory := List Host.Cell

/-- The return-address stack (10_state.md R24) as its written entries, entry numbers strictly rising; an unlisted
entry holds the free value `Config.freeStackEntry`. -/
abbrev CallStack := List (Nat × Word)

/-- The state of the block. -/
structure State where
  /-- `QUIRKS`, `FONT_BASE`, `FONT_DATA`: constant (10_state.md R33, R36; log entry 3) -/
  params       : Params
  /-- `V[0]` to `V[15]` (R20) -/
  v            : Vector Byte 16
  /-- the written marks of `V` (R35) -/
  vWritten     : Vector Bool 16
  /-- `I` (R22) -/
  index        : Word
  /-- the written mark of `I` (R35) -/
  indexWritten : Bool
  /-- `pc` (R23) -/
  pc           : Word
  /-- `Stack[0..1023]` (R24) -/
  stack        : CallStack
  /-- `SP` (R25) -/
  sp           : Byte
  /-- `DT` (R26) -/
  dt           : Byte
  /-- `ST` (R26) -/
  st           : Byte
  /-- `D(px, py)` (R27) -/
  display      : Display
  /-- `keys_cur` (R28) -/
  keysCur      : Vector Bool 16
  /-- `keys_prev` (R28) -/
  keysPrev     : Vector Bool 16
  /-- the decode state: the opcode of the last fetch, whose fields are views (R29; log entry 12) -/
  op           : Word
  /-- `mode` (R31) -/
  mode         : Mode
  /-- `fault` (R32) -/
  fault        : Option FaultRecord
  /-- `Mem[0x000..0xFFF]`, with the written marks of its bytes (20_memory.md R60; R35; log entry 9) -/
  mem          : Memory
  /-- the model's own: the inputs of the next steps, oldest first (40_engine_cycle.md R110; log entry 2) -/
  inputs       : List StepInput
  /-- the model's own: the number of the next step's input (log entry 2) -/
  inputNo      : Nat
  deriving DecidableEq, Repr

/-- `PROG_BASE`, the entry point (00_scope.md R7; 70_reset_and_hazards.md R341). -/
def progBase : Word := 0x200

/-- The block after construction with parameters `p`, before the host loads a program (70_reset_and_hazards.md R340,
steps 1 to 8). The values behind the cleared marks of `V` and `I` (log entry 7) and of the decode state (log entry 11)
are DESIGN CHOICES: no step reads them. -/
def State.constructed (p : Params) : State where
  params       := p
  v            := Vector.replicate 16 0
  vWritten     := Vector.replicate 16 false
  index        := 0
  indexWritten := false
  pc           := progBase
  stack        := []
  sp           := 0
  dt           := 0
  st           := 0
  display      := Vector.replicate 32 (Vector.replicate 64 false)
  keysCur      := Vector.replicate 16 false
  keysPrev     := Vector.replicate 16 false
  op           := 0
  mode         := .ready
  fault        := none
  mem          := []
  inputs       := []
  inputNo      := 0

/-- The machine right after reset: a block constructed with `Config.params`, no program loaded. -/
def State.reset : State := State.constructed Config.params

end Sys2Proof.Machine
end

