-- ==== Sys2Proof/Machine/Memory.lean ====
section
/-! DEFINITION. The memory array (20_memory.md R60 to R63, R68): what an unlisted address reads as, the byte read and
write, and the canonical form. -/

namespace Sys2Proof.Machine

/-- Byte `k` of `FONT_DATA`, 0 to 79 (00_scope.md R7): glyph 0, then the parameter's glyphs 1 to F. -/
def fontByte (p : Params) (k : Nat) : Byte :=
  if h : k < 5 then Config.glyph0[k]
  else if h' : k - 5 < 75 then p.fontRest[k - 5]
  else 0

/-- What an unlisted address reads as: the contents after construction (20_memory.md R68; 70_reset_and_hazards.md R340).
The font bytes at `FONT_BASE` to `FONT_BASE + 79`; every other byte is unwritten, no value (10_state.md R35). -/
def resetByte (p : Params) (a : Nat) : Option Byte :=
  if a < 0x200 then
    if p.fontBase.val ≤ a ∧ a < p.fontBase.val + 80 then some (fontByte p (a - p.fontBase.val)) else none
  else none

/-- The byte at address `a`, `none` where it was never written (10_state.md R35). -/
def Memory.read (p : Params) (m : Memory) (a : Nat) : Option Byte :=
  match cellAt m a with
  | some b => some b
  | none => resetByte p a

/-- Memory with `b` written at `a`. Writing what the unlisted address reads as removes the entry. -/
def Memory.write (p : Params) (m : Memory) (a : Nat) (b : Byte) : Memory :=
  if resetByte p a = some b then dropCell m a else putCell m a b

/-- The canonical form: addresses strictly rising and inside the 4096-byte array (20_memory.md R60), no entry equal to
what its address reads as when unlisted. -/
def Memory.wf (p : Params) (m : Memory) : Bool :=
  rising m && m.all (fun c => decide (c.1 ≤ 0xFFF) && decide (resetByte p c.1 ≠ some c.2))

end Sys2Proof.Machine
end

