-- ==== Sys2Proof/Machine/Ops.lean ====
section
/-! DEFINITION. The named operations over registers, memory, stack and engine state, and taking a fault. -/

namespace Sys2Proof.Machine

/-- What executing an instruction or taking a step answers. -/
abbrev Result := Host.Outcome State Fault Refusal

/-! ### Writes, one per piece of state -/

/-- `V[x] <- b`, which sets the written mark (10_state.md R20, R35). -/
def State.writeV (s : State) (x : Reg) (b : Byte) : State :=
  { s with v := s.v.set x.val b, vWritten := s.vWritten.set x.val true }

/-- `I <- w`, which sets the written mark (10_state.md R22, R35). -/
def State.writeI (s : State) (w : Word) : State := { s with index := w, indexWritten := true }

/-- `pc <- w` (10_state.md R23). -/
def State.setPc (s : State) (w : Word) : State := { s with pc := w }

/-- `SP <- b` (10_state.md R25). -/
def State.setSp (s : State) (b : Byte) : State := { s with sp := b }

/-- `Stack[k] <- w` (10_state.md R24). -/
def State.setStackEntry (s : State) (k : Nat) (w : Word) : State := { s with stack := putCell s.stack k w }

/-- `DT <- b` (10_state.md R26). -/
def State.setDt (s : State) (b : Byte) : State := { s with dt := b }

/-- `ST <- b` (10_state.md R26). -/
def State.setSt (s : State) (b : Byte) : State := { s with st := b }

/-- The display replaced (10_state.md R27). -/
def State.setDisplay (s : State) (d : Display) : State := { s with display := d }

/-- `mode <- m` (10_state.md R31). -/
def State.setMode (s : State) (m : Mode) : State := { s with mode := m }

/-- The memory replaced (20_memory.md R60). -/
def State.setMem (s : State) (m : Memory) : State := { s with mem := m }

/-- Both key snapshots replaced (10_state.md R28). -/
def State.setKeys (s : State) (prev cur : Vector Bool 16) : State := { s with keysPrev := prev, keysCur := cur }

/-- The decode state replaced (10_state.md R29). -/
def State.setOp (s : State) (op : Word) : State := { s with op := op }

/-- The fault record replaced (10_state.md R32). -/
def State.setFault (s : State) (f : Option FaultRecord) : State := { s with fault := f }

/-- The model's input schedule replaced (log entry 2). -/
def State.setInputs (s : State) (l : List StepInput) (n : Nat) : State := { s with inputs := l, inputNo := n }

/-! ### Taking a fault -/

/-- Taking a fault (60_exceptions.md R301; 40_engine_cycle.md R118): nothing but the fault record is written.
There is no handler, no saved register and no return (R302). -/
def State.takeFault (s : State) (r : FaultReason) (pcBefore : Word) (op : Option Word) : State :=
  s.setFault (some { reason := r, pc := pcBefore, op := op })

/-- `raise` in the execute phase (00_scope.md R10). `pc` was advanced by the fetch, so the step began at `pc - 2`
(40_engine_cycle.md R113); the fetched opcode is the decode state. Log entries 1, 13. -/
def State.raise (s : State) (r : FaultReason) : Result := .next (s.takeFault r (s.pc - 2) (some s.op))

/-- Go on with the value read, or raise the fault of the read (00_scope.md R11, R12). -/
def State.orFault {α : Type} (s : State) (e : Except FaultReason α) (k : α → Result) : Result :=
  match e with
  | .ok a => k a
  | .error r => s.raise r

/-! ### Reads and checks that can fault -/

/-- Read `V[x]` (00_scope.md R12). -/
def State.readV (s : State) (x : Reg) : Except FaultReason Byte :=
  if s.vWritten[x.val] then .ok s.v[x.val] else .error (.uninitializedRead (.v x))

/-- Read `I` (00_scope.md R12). -/
def State.readI (s : State) : Except FaultReason Word :=
  if s.indexWritten then .ok s.index else .error (.uninitializedRead .index)

/-- The byte at `a`, `none` where it has no value: what a host or a claim sees, no access of the block. -/
def State.peek (s : State) (a : Nat) : Option Byte := Memory.read s.params s.mem a

/-- An address that an instruction uses is at most 0xFFF (20_memory.md R62, R63). -/
def checkAddr (a : Nat) : Except FaultReason Unit :=
  if a > 0xFFF then .error (.memOutOfRange a) else .ok ()

/-- `MemRead(a, 1)` (20_memory.md R62). -/
def State.readMem (s : State) (a : Nat) : Except FaultReason Byte :=
  if a > 0xFFF then .error (.memOutOfRange a)
  else match s.peek a with
    | some b => .ok b
    | none => .error (.uninitializedRead (.mem a))

/-- The write of `MemWrite(a, 1, b)`, its address checked before (20_memory.md R63; 00_scope.md R11). -/
def State.storeByte (s : State) (a : Nat) (b : Byte) : State := s.setMem (Memory.write s.params s.mem a b)

/-- Bytes written at `a`, `a + 1`, and so on, in order (20_memory.md R66). -/
def State.storeBytes (s : State) (a : Nat) : List Byte → State
  | [] => s
  | b :: rest => (s.storeByte a b).storeBytes (a + 1) rest

/-- Reads made one after another: all the values, or the first fault. -/
def readAll {α : Type} : List (Except FaultReason α) → Except FaultReason (List α)
  | [] => .ok []
  | .error r :: _ => .error r
  | .ok a :: rest =>
    match readAll rest with
    | .ok l => .ok (a :: l)
    | .error r => .error r

/-- `MemRead` of `n` bytes from `a` on, the lowest address first (20_memory.md R66). -/
def State.readBytes (s : State) (a n : Nat) : Except FaultReason (List Byte) :=
  readAll ((List.range n).map fun r => s.readMem (a + r))

/-- Registers written one after another. -/
def State.writeVs (s : State) : List (Reg × Byte) → State
  | [] => s
  | (x, b) :: rest => (s.writeV x b).writeVs rest

/-! ### The stack and the program counter -/

/-- `Stack[k]` (10_state.md R24). Before a push to it, it is a free value (log entry 10). -/
def State.stackEntry (s : State) (k : Nat) : Word := (cellAt s.stack k).getD (Config.freeStackEntry k)

/-- A push needs `SP < 255` (10_state.md R25). -/
def State.checkPush (s : State) : Except FaultReason Unit :=
  if s.sp = 255 then .error (.stackOverflow s.sp) else .ok ()

/-- A pop needs `SP > 0` (10_state.md R25). -/
def State.checkPop (s : State) : Except FaultReason Unit :=
  if s.sp = 0 then .error (.stackUnderflow s.sp) else .ok ()

/-- Store, then increment `SP` (10_state.md R25). -/
def State.push (s : State) (w : Word) : State := (s.setStackEntry s.sp.toNat w).setSp (s.sp + 1)

/-- `Skip` if the condition holds (41_control_flow.md R140). -/
def State.skipIf (s : State) (c : Bool) : State := s.setPc (if c then s.pc + 2 else s.pc)

end Sys2Proof.Machine
end

