-- ==== Sys2Proof/Machine/Quirks.lean ====
section
/-! DEFINITION. The compatibility bits by name (10_state.md R33). No definition reads bit 4, `Q_DISPSYNC` (decision D3). -/

namespace Sys2Proof.Machine

/-- `Q_SHIFT`, bit 0: shifts copy `V[y]` first. -/
def State.qShift (s : State) : Bool := s.params.quirks.getLsbD 0

/-- `Q_LOADSTORE`, bit 1: FX55 and FX65 move `I`. -/
def State.qLoadStore (s : State) : Bool := s.params.quirks.getLsbD 1

/-- `Q_JUMP`, bit 2: BNNN adds `V[0]`. -/
def State.qJump (s : State) : Bool := s.params.quirks.getLsbD 2

/-- `Q_LOGIC`, bit 3: OR, AND and XOR clear `VF`. -/
def State.qLogic (s : State) : Bool := s.params.quirks.getLsbD 3

/-- `Q_CLIP`, bit 5: DXYN clips at the display edge. -/
def State.qClip (s : State) : Bool := s.params.quirks.getLsbD 5

end Sys2Proof.Machine
end

