-- ==== Sys2Proof/Machine/Operands.lean ====
section
/-! DEFINITION. Every operand form of the instructions (30_encoding.md R83). -/

namespace Sys2Proof.Machine

/-- `zext_16(nnn)` (30_encoding.md R83). -/
def addrWord (nnn : Addr) : Word := nnn.setWidth 16

/-- A register's value as a 16-bit addend. -/
def byteWord (b : Byte) : Word := b.setWidth 16

/-- The register a shift reads: `V[y]` under `Q_SHIFT`, else `V[x]` (42_register_alu.md R180, R182). -/
def State.shiftReg (s : State) (x y : Reg) : Reg := if s.qShift then y else x

/-- The register `JP V0, nnn` adds: `V[0]` under `Q_JUMP`, else `V[x]` (41_control_flow.md R148). -/
def State.jumpReg (s : State) (x : Reg) : Reg := if s.qJump then 0 else x

/-- The offset of the glyph of the low nibble: 5 bytes a glyph (45_index_memory.md R261). -/
def glyphOffset (b : Byte) : Word := 5 * byteWord (b &&& 0x0F)

/-- A key index must be at most 15 (44_input_timers.md R230, R231). -/
def keyIndex (b : Byte) : Except FaultReason Reg :=
  if h : b.toNat < 16 then .ok ⟨b.toNat, h⟩ else .error (.keyIndexOutOfRange b)

/-- The three decimal digits: hundreds, tens, units (45_index_memory.md R262). -/
def bcdDigits (b : Byte) : List Byte :=
  [BitVec.ofNat 8 ((b.toNat % 1000) / 100), BitVec.ofNat 8 ((b.toNat % 100) / 10), BitVec.ofNat 8 (b.toNat % 10)]

/-- `V[0]` to `V[15]`, in order. -/
def allRegs : List Reg := [0, 1, 2, 3, 4, 5, 6, 7, 8, 9, 10, 11, 12, 13, 14, 15]

/-- `V[0]` to `V[x]`, in order (45_index_memory.md R263, R264). -/
def regsUpTo (x : Reg) : List Reg := allRegs.take (x.val + 1)

/-- `I` after FX55 and FX65: `I + x + 1` under `Q_LOADSTORE`, else not written (45_index_memory.md R263, R264). -/
def State.advanceI (s : State) (a : Word) (x : Reg) : State :=
  if s.qLoadStore then s.writeI (a + BitVec.ofNat 16 (x.val + 1)) else s

/-- The inputs of this step: the first pending ones, or free ones where none is pending
(40_engine_cycle.md R110; log entry 2). -/
def State.input (s : State) : StepInput :=
  match s.inputs with
  | [] => Config.freeInput s.inputNo
  | i :: _ => i

end Sys2Proof.Machine
end

