-- ==== Sys2Proof/Machine/ControlFlow.lean ====
section
/-! DEFINITION. Return, jumps, call, skips (41_control_flow.md). `pc` is already past the instruction (R113). -/

namespace Sys2Proof.Machine

/-- 00EE `RET` (R141): the popped entry keeps its value. -/
def execRet (s : State) : Result :=
  s.orFault s.checkPop fun _ => .next ((s.setSp (s.sp - 1)).setPc (s.stackEntry (s.sp - 1).toNat))

/-- 1NNN `JP nnn` (R142). -/
def execJp (nnn : Addr) (s : State) : Result := .next (s.setPc (addrWord nnn))

/-- 2NNN `CALL nnn` (R143): it pushes the advanced `pc`. -/
def execCall (nnn : Addr) (s : State) : Result :=
  s.orFault s.checkPush fun _ => .next ((s.push s.pc).setPc (addrWord nnn))

/-- 3XNN `SE Vx, nn` (R144). -/
def execSeImm (x : Reg) (nn : Byte) (s : State) : Result :=
  s.orFault (s.readV x) fun a => .next (s.skipIf (a == nn))

/-- 4XNN `SNE Vx, nn` (R145). -/
def execSneImm (x : Reg) (nn : Byte) (s : State) : Result :=
  s.orFault (s.readV x) fun a => .next (s.skipIf (a != nn))

/-- 5XY0 `SE Vx, Vy` (R146). -/
def execSeReg (x y : Reg) (s : State) : Result :=
  s.orFault (s.readV x) fun a => s.orFault (s.readV y) fun b => .next (s.skipIf (a == b))

/-- 9XY0 `SNE Vx, Vy` (R147). -/
def execSneReg (x y : Reg) (s : State) : Result :=
  s.orFault (s.readV x) fun a => s.orFault (s.readV y) fun b => .next (s.skipIf (a != b))

/-- BNNN `JP V0, nnn` (R148): the sum is not reduced to 12 bits. -/
def execJpV0 (x : Reg) (nnn : Addr) (s : State) : Result :=
  s.orFault (s.readV (s.jumpReg x)) fun a => .next (s.setPc (addrWord nnn + byteWord a))

end Sys2Proof.Machine
end

