-- ==== Sys2Proof/Machine/Flags.lean ====
section
/-! DEFINITION. Every computation of the flag `VF` (10_state.md R21), and its write. -/

namespace Sys2Proof.Machine

/-- `VF <- 1` or `0`. It is the last write of an instruction (42_register_alu.md R171). -/
def State.writeFlag (s : State) (f : Bool) : State := s.writeV VF (if f then 1 else 0)

/-- The carry of `a + b` (42_register_alu.md R178). -/
def carryFlag (a b : Byte) : Bool := decide (a.toNat + b.toNat > 255)

/-- `a - b` is strictly positive (42_register_alu.md R179, R181). -/
def positiveFlag (a b : Byte) : Bool := decide (a.toNat > b.toNat)

/-- The bit a right shift moves out (42_register_alu.md R180). -/
def lowBit (b : Byte) : Bool := b.getLsbD 0

/-- The bit a left shift moves out (42_register_alu.md R182). -/
def highBit (b : Byte) : Bool := b.getLsbD 7

/-- `I + V[x]` passes the top address 0xFFF (45_index_memory.md R260). -/
def indexFlag (i : Word) (b : Byte) : Bool := decide (i.toNat + b.toNat > 0xFFF)

/-- OR, AND and XOR clear `VF` under `Q_LOGIC` and leave it otherwise (42_register_alu.md R175 to R177). -/
def State.logicFlag (s : State) : State := if s.qLogic then s.writeFlag false else s

end Sys2Proof.Machine
end

