-- ==== Sys2Proof/Machine/Draw.lean ====
section
/-! DEFINITION. The display (43_display.md), `CLS` and `DRW`. -/

namespace Sys2Proof.Machine

/-- The cell `D(px, py)` (10_state.md R27). -/
def Display.cell (d : Display) (px : Fin 64) (py : Fin 32) : Bool := (d[py.val])[px.val]

/-- The display with the cell `D(px, py)` XORed with 1. -/
def Display.toggle (d : Display) (px : Fin 64) (py : Fin 32) : Display :=
  d.set py.val ((d[py.val]).set px.val (!d.cell px py))

/-- Every cell 0 (43_display.md R210). -/
def Display.blank : Display := Vector.replicate 32 (Vector.replicate 64 false)

/-- The cell of sprite pixel (`b`, `r`) of a sprite drawn at (`cx`, `cy`): `none` where it is clipped; without clipping
the coordinates wrap (43_display.md R211). -/
def pixelCell (clip : Bool) (cx cy b r : Nat) : Option (Fin 64 × Fin 32) :=
  if clip then
    if h : cx + b < 64 ∧ cy + r < 32 then some (⟨cx + b, h.1⟩, ⟨cy + r, h.2⟩) else none
  else some (Fin.ofNat 64 (cx + b), Fin.ofNat 32 (cy + r))

/-- The cells of one sprite row, its leftmost pixel (bit 7) first. -/
def rowCells (clip : Bool) (cx cy r : Nat) (row : Byte) : List (Fin 64 × Fin 32) :=
  (List.range 8).filterMap fun b => if row.getLsbD (7 - b) then pixelCell clip cx cy b r else none

/-- The cells a sprite draws, in the order of the pseudocode's loops; `r` is the number of the first row. -/
def spriteCells (clip : Bool) (cx cy r : Nat) : List Byte → List (Fin 64 × Fin 32)
  | [] => []
  | row :: rest => rowCells clip cx cy r row ++ spriteCells clip cx cy (r + 1) rest

/-- XOR the cells one after another; the flag records a cell that went from 1 to 0. -/
def drawCells (d : Display) (hit : Bool) : List (Fin 64 × Fin 32) → Display × Bool
  | [] => (d, hit)
  | (px, py) :: rest => drawCells (d.toggle px py) (hit || d.cell px py) rest

/-- The sprite's `n` rows at `I`; for `n = 0` nothing is read, not even `I` (43_display.md R211). -/
def State.spriteRows (s : State) (n : Nibble) : Except FaultReason (List Byte) :=
  if n = 0 then .ok []
  else match s.readI with
    | .ok a => s.readBytes a.toNat n.toNat
    | .error r => .error r

/-- 00E0 `CLS` (R210). -/
def execCls (s : State) : Result := .next (s.setDisplay Display.blank)

/-- DXYN `DRW Vx, Vy, n` (R211): both coordinates and all rows are read before the first write. -/
def execDrw (x y : Reg) (n : Nibble) (s : State) : Result :=
  s.orFault (s.readV x) fun cx => s.orFault (s.readV y) fun cy => s.orFault (s.spriteRows n) fun rows =>
    let drawn := drawCells s.display false (spriteCells s.qClip cx.toNat cy.toNat 0 rows)
    .next ((s.setDisplay drawn.1).writeFlag drawn.2)

end Sys2Proof.Machine
end

