-- ==== Sys2Proof/Machine/IndexMemory.lean ====
section
/-! DEFINITION. Index arithmetic, font address, BCD, register store and load (45_index_memory.md). -/

namespace Sys2Proof.Machine

/-- FX1E `ADD I, Vx` (R260). -/
def execAddI (x : Reg) (s : State) : Result :=
  s.orFault s.readI fun i => s.orFault (s.readV x) fun a =>
    .next ((s.writeI (i + byteWord a)).writeFlag (indexFlag i a))

/-- FX29 `LD F, Vx` (R261): additive. -/
def execLdF (x : Reg) (s : State) : Result :=
  s.orFault (s.readV x) fun a => s.orFault s.readI fun i => .next (s.writeI (i + glyphOffset a))

/-- FX33 `LD B, Vx` (R262): `I` is unchanged. -/
def execLdB (x : Reg) (s : State) : Result :=
  s.orFault (s.readV x) fun a => s.orFault s.readI fun i => s.orFault (checkAddr (i.toNat + 2)) fun _ =>
    .next (s.storeBytes i.toNat (bcdDigits a))

/-- FX55 `LD [I], Vx` (R263): the address is checked before the registers are read. -/
def execStoreRegs (x : Reg) (s : State) : Result :=
  s.orFault s.readI fun i => s.orFault (checkAddr (i.toNat + x.val)) fun _ =>
    s.orFault (readAll ((regsUpTo x).map s.readV)) fun vals =>
      .next ((s.storeBytes i.toNat vals).advanceI i x)

/-- FX65 `LD Vx, [I]` (R264): all bytes are read, the lowest first, before a register is written. -/
def execLoadRegs (x : Reg) (s : State) : Result :=
  s.orFault s.readI fun i => s.orFault (s.readBytes i.toNat (x.val + 1)) fun vals =>
    .next ((s.writeVs ((regsUpTo x).zip vals)).advanceI i x)

end Sys2Proof.Machine
end

