-- ==== Sys2Proof/Machine/InputTimers.lean ====
section
/-! DEFINITION. Keys, timer registers and the key wait (44_input_timers.md). -/

namespace Sys2Proof.Machine

/-- EX9E `SKP Vx` (R230): it tests this step's keys. -/
def execSkp (x : Reg) (s : State) : Result :=
  s.orFault (s.readV x) fun a => s.orFault (keyIndex a) fun k => .next (s.skipIf s.keysCur[k.val])

/-- EXA1 `SKNP Vx` (R231). -/
def execSknp (x : Reg) (s : State) : Result :=
  s.orFault (s.readV x) fun a => s.orFault (keyIndex a) fun k => .next (s.skipIf (!s.keysCur[k.val]))

/-- FX07 `LD Vx, DT` (R232). -/
def execLdVxDt (x : Reg) (s : State) : Result := .next (s.writeV x s.dt)

/-- FX15 `LD DT, Vx` (R233). -/
def execLdDtVx (x : Reg) (s : State) : Result := s.orFault (s.readV x) fun a => .next (s.setDt a)

/-- FX18 `LD ST, Vx` (R234). -/
def execLdStVx (x : Reg) (s : State) : Result := s.orFault (s.readV x) fun a => .next (s.setSt a)

/-- The first transition: the lowest key whose state changed in this step (R236). -/
def State.firstTransition (s : State) : Option Reg :=
  allRegs.find? fun k => s.keysCur[k.val] != s.keysPrev[k.val]

/-- `WaitBody(x)` (R236): record the key of the first transition; only a release ends the wait. -/
def State.waitBody (s : State) (x : Reg) : State :=
  match s.firstTransition with
  | some k =>
    (s.writeV x (BitVec.ofNat 8 k.val)).setMode
      (if s.keysPrev[k.val] && !s.keysCur[k.val] then .ready else .waitingForKey)
  | none => s.setMode .waitingForKey

/-- FX0A `LD Vx, K` (R235), in the step that fetched it. -/
def execLdVxK (x : Reg) (s : State) : Result := .next (s.waitBody x)

end Sys2Proof.Machine
end

