-- ==== Sys2Proof/Machine/RegisterAlu.lean ====
section
/-! DEFINITION. Register loads, arithmetic, logic, shifts, index load, random (42_register_alu.md). -/

namespace Sys2Proof.Machine

/-- 6XNN `LD Vx, nn` (R172). -/
def execLdImm (x : Reg) (nn : Byte) (s : State) : Result := .next (s.writeV x nn)

/-- 7XNN `ADD Vx, nn` (R173): no flag. -/
def execAddImm (x : Reg) (nn : Byte) (s : State) : Result :=
  s.orFault (s.readV x) fun a => .next (s.writeV x (a + nn))

/-- 8XY0 `LD Vx, Vy` (R174). -/
def execLdReg (x y : Reg) (s : State) : Result :=
  s.orFault (s.readV y) fun b => .next (s.writeV x b)

/-- 8XY1 `OR Vx, Vy` (R175). -/
def execOrReg (x y : Reg) (s : State) : Result :=
  s.orFault (s.readV x) fun a => s.orFault (s.readV y) fun b => .next (s.writeV x (a ||| b)).logicFlag

/-- 8XY2 `AND Vx, Vy` (R176). -/
def execAndReg (x y : Reg) (s : State) : Result :=
  s.orFault (s.readV x) fun a => s.orFault (s.readV y) fun b => .next (s.writeV x (a &&& b)).logicFlag

/-- 8XY3 `XOR Vx, Vy` (R177). -/
def execXorReg (x y : Reg) (s : State) : Result :=
  s.orFault (s.readV x) fun a => s.orFault (s.readV y) fun b => .next (s.writeV x (a ^^^ b)).logicFlag

/-- 8XY4 `ADD Vx, Vy` (R178): `VF` is the carry. -/
def execAddReg (x y : Reg) (s : State) : Result :=
  s.orFault (s.readV x) fun a => s.orFault (s.readV y) fun b =>
    .next ((s.writeV x (a + b)).writeFlag (carryFlag a b))

/-- 8XY5 `SUB Vx, Vy` (R179): `VF` is 1 iff `V[x] > V[y]`. -/
def execSubReg (x y : Reg) (s : State) : Result :=
  s.orFault (s.readV x) fun a => s.orFault (s.readV y) fun b =>
    .next ((s.writeV x (a - b)).writeFlag (positiveFlag a b))

/-- 8XY6 `SHR Vx {, Vy}` (R180). -/
def execShr (x y : Reg) (s : State) : Result :=
  s.orFault (s.readV (s.shiftReg x y)) fun a => .next ((s.writeV x (a >>> 1)).writeFlag (lowBit a))

/-- 8XY7 `SUBN Vx, Vy` (R181): `VF` is 1 iff `V[y] > V[x]`. -/
def execSubnReg (x y : Reg) (s : State) : Result :=
  s.orFault (s.readV x) fun a => s.orFault (s.readV y) fun b =>
    .next ((s.writeV x (b - a)).writeFlag (positiveFlag b a))

/-- 8XYE `SHL Vx {, Vy}` (R182). -/
def execShl (x y : Reg) (s : State) : Result :=
  s.orFault (s.readV (s.shiftReg x y)) fun a => .next ((s.writeV x (a <<< 1)).writeFlag (highBit a))

/-- ANNN `LD I, nnn` (R183). -/
def execLdI (nnn : Addr) (s : State) : Result := .next (s.writeI (addrWord nnn))

/-- CXNN `RND Vx, nn` (R184): the random byte is the step's input `rnd`. -/
def execRnd (x : Reg) (nn : Byte) (s : State) : Result := .next (s.writeV x (s.input.rnd &&& nn))

end Sys2Proof.Machine
end

