-- ==== Sys2Proof/WellFormed.lean ====
section
/-! DEFINITION. When a term of `Instr` stands for an instruction word. Every field but one is bounded by its type. -/

namespace Sys2Proof

/-- `JP V0, nnn` names its register twice: `x` must be `nnn[11:8]` (30_encoding.md R82; 41_control_flow.md R148).
The other instructions' fields are independent, and their widths are in their types (30_encoding.md R81). -/
def Instr.wellFormed : Instr → Bool
  | .jpV0 x nnn => nnn.toNat / 256 == x.val
  | .cls | .ret | .jp _ | .call _ | .seImm _ _ | .sneImm _ _ | .seReg _ _ | .ldImm _ _ | .addImm _ _
  | .ldReg _ _ | .orReg _ _ | .andReg _ _ | .xorReg _ _ | .addReg _ _ | .subReg _ _ | .shr _ _
  | .subnReg _ _ | .shl _ _ | .sneReg _ _ | .ldI _ | .rnd _ _ | .drw _ _ _ | .skp _ | .sknp _
  | .ldVxDt _ | .ldVxK _ | .ldDtVx _ | .ldStVx _ | .addI _ | .ldF _ | .ldB _ | .storeRegs _
  | .loadRegs _ => true

end Sys2Proof
end

