-- ==== Sys2Proof/Decode.lean ====
section
/-! DEFINITION. The fields of an opcode, the two-level dispatch (30_encoding.md R81, R85, R86), and the encoder. -/

namespace Sys2Proof

/-! ### The fields of an opcode (30_encoding.md R81) -/

/-- `op[15:12]`, the family: the level-1 key. -/
def opFamily (op : Word) : Nibble := op.extractLsb' 12 4

/-- `x = op[11:8]`, a register number. -/
def opX (op : Word) : Reg := (op.extractLsb' 8 4).toFin

/-- `y = op[7:4]`, a register number. -/
def opY (op : Word) : Reg := (op.extractLsb' 4 4).toFin

/-- `n = op[3:0]`. -/
def opN (op : Word) : Nibble := op.extractLsb' 0 4

/-- `nn = op[7:0]`. -/
def opNN (op : Word) : Byte := op.extractLsb' 0 8

/-- `nnn = op[11:0]`. -/
def opNNN (op : Word) : Addr := op.extractLsb' 0 12

/-- The opcode of two fetched bytes, the first one in bits 15:8 (20_memory.md R64). -/
def composeOp (hi lo : Byte) : Word := hi ++ lo

/-- Bits 15:8 of an opcode, the byte at the lower address (20_memory.md R64). -/
def opHi (op : Word) : Byte := op.extractLsb' 8 8

/-- Bits 7:0 of an opcode, the byte at the higher address (20_memory.md R64). -/
def opLo (op : Word) : Byte := op.extractLsb' 0 8

/-! ### The two-level dispatch (30_encoding.md R85) -/

/-- `MASK[f]`, the per-family mask. -/
def familyMask (f : Nibble) : Word :=
  match f.toNat with
  | 0x0 => 0xFFFF
  | 0x5 => 0xF00F
  | 0x8 => 0xF00F
  | 0x9 => 0xF00F
  | 0xE => 0xF0FF
  | 0xF => 0xF0FF
  | _ => 0xF000

/-- The instruction registered under the level-2 key `key`, with the operands of `op`; `none` where none is.
A key holds its family in bits 15:12, so one table serves the sixteen families' `KEYS[f]`. -/
def instrOfKey (key op : Word) : Option Instr :=
  match key.toNat with
  | 0x00E0 => some .cls
  | 0x00EE => some .ret
  | 0x1000 => some (.jp (opNNN op))
  | 0x2000 => some (.call (opNNN op))
  | 0x3000 => some (.seImm (opX op) (opNN op))
  | 0x4000 => some (.sneImm (opX op) (opNN op))
  | 0x5000 => some (.seReg (opX op) (opY op))
  | 0x6000 => some (.ldImm (opX op) (opNN op))
  | 0x7000 => some (.addImm (opX op) (opNN op))
  | 0x8000 => some (.ldReg (opX op) (opY op))
  | 0x8001 => some (.orReg (opX op) (opY op))
  | 0x8002 => some (.andReg (opX op) (opY op))
  | 0x8003 => some (.xorReg (opX op) (opY op))
  | 0x8004 => some (.addReg (opX op) (opY op))
  | 0x8005 => some (.subReg (opX op) (opY op))
  | 0x8006 => some (.shr (opX op) (opY op))
  | 0x8007 => some (.subnReg (opX op) (opY op))
  | 0x800E => some (.shl (opX op) (opY op))
  | 0x9000 => some (.sneReg (opX op) (opY op))
  | 0xA000 => some (.ldI (opNNN op))
  | 0xB000 => some (.jpV0 (opX op) (opNNN op))
  | 0xC000 => some (.rnd (opX op) (opNN op))
  | 0xD000 => some (.drw (opX op) (opY op) (opN op))
  | 0xE09E => some (.skp (opX op))
  | 0xE0A1 => some (.sknp (opX op))
  | 0xF007 => some (.ldVxDt (opX op))
  | 0xF00A => some (.ldVxK (opX op))
  | 0xF015 => some (.ldDtVx (opX op))
  | 0xF018 => some (.ldStVx (opX op))
  | 0xF01E => some (.addI (opX op))
  | 0xF029 => some (.ldF (opX op))
  | 0xF033 => some (.ldB (opX op))
  | 0xF055 => some (.storeRegs (opX op))
  | 0xF065 => some (.loadRegs (opX op))
  | _ => none

/-- `Decode(op)` of 30_encoding.md R85; `none` is its miss, an unimplemented word (R87). -/
def decodeWord (op : Word) : Option Instr := instrOfKey (op &&& familyMask (opFamily op)) op

/-- Why bytes are no instruction. -/
inductive DecodeReject where
  /-- The word misses the dispatch table (30_encoding.md R87). -/
  | unimplemented (op : Word)
  /-- Fewer than the two bytes of an instruction (30_encoding.md R80). -/
  | truncated
  deriving DecidableEq, Repr

/-- The decoder on bytes: the first instruction and the bytes after it (30_encoding.md R80; 20_memory.md R64). -/
def decode : List Byte → Except DecodeReject (Instr × List Byte)
  | hi :: lo :: rest =>
    match decodeWord (composeOp hi lo) with
    | some i => .ok (i, rest)
    | none => .error (.unimplemented (composeOp hi lo))
  | [_] => .error .truncated
  | [] => .error .truncated

/-- The instruction word whose bits are the opcode table's `w`: every bit from `nbits` on is 0 (log entry 15). -/
def tableWord (nbits w : Nat) : Word := BitVec.ofNat 16 (w % 2 ^ nbits)

/-- What the decoder reads from the opcode table's word, laid out as memory holds it, the high byte first
(20_memory.md R64). -/
def decodeTableWord (nbits w : Nat) : Option Instr :=
  match decode [opHi (tableWord nbits w), opLo (tableWord nbits w)] with
  | .ok (i, _) => some i
  | .error _ => none

/-! ### The encoder, from the formats of 30_encoding.md R84 -/

/-- A register number as its 4-bit field. -/
def regField (x : Reg) : Nibble := BitVec.ofFin x

/-- Formats `XYS` and `XYN`: family, x, y, and the sub-opcode or row count. -/
def wordXY (f : Nibble) (x y : Reg) (n : Nibble) : Word := f ++ (regField x ++ (regField y ++ n))

/-- Formats `XNN` and `XS`: family, x, and the immediate or sub-opcode. -/
def wordX (f : Nibble) (x : Reg) (nn : Byte) : Word := f ++ (regField x ++ nn)

/-- Format `NNN`: family and address. -/
def wordNNN (f : Nibble) (nnn : Addr) : Word := f ++ nnn

/-- The word of a well-formed instruction (30_encoding.md R86). -/
def encodeWord : Instr → Word
  | .cls => 0x00E0
  | .ret => 0x00EE
  | .jp nnn => wordNNN 0x1 nnn
  | .call nnn => wordNNN 0x2 nnn
  | .seImm x nn => wordX 0x3 x nn
  | .sneImm x nn => wordX 0x4 x nn
  | .seReg x y => wordXY 0x5 x y 0x0
  | .ldImm x nn => wordX 0x6 x nn
  | .addImm x nn => wordX 0x7 x nn
  | .ldReg x y => wordXY 0x8 x y 0x0
  | .orReg x y => wordXY 0x8 x y 0x1
  | .andReg x y => wordXY 0x8 x y 0x2
  | .xorReg x y => wordXY 0x8 x y 0x3
  | .addReg x y => wordXY 0x8 x y 0x4
  | .subReg x y => wordXY 0x8 x y 0x5
  | .shr x y => wordXY 0x8 x y 0x6
  | .subnReg x y => wordXY 0x8 x y 0x7
  | .shl x y => wordXY 0x8 x y 0xE
  | .sneReg x y => wordXY 0x9 x y 0x0
  | .ldI nnn => wordNNN 0xA nnn
  | .jpV0 _ nnn => wordNNN 0xB nnn
  | .rnd x nn => wordX 0xC x nn
  | .drw x y n => wordXY 0xD x y n
  | .skp x => wordX 0xE x 0x9E
  | .sknp x => wordX 0xE x 0xA1
  | .ldVxDt x => wordX 0xF x 0x07
  | .ldVxK x => wordX 0xF x 0x0A
  | .ldDtVx x => wordX 0xF x 0x15
  | .ldStVx x => wordX 0xF x 0x18
  | .addI x => wordX 0xF x 0x1E
  | .ldF x => wordX 0xF x 0x29
  | .ldB x => wordX 0xF x 0x33
  | .storeRegs x => wordX 0xF x 0x55
  | .loadRegs x => wordX 0xF x 0x65

/-- The two bytes of a well-formed instruction, big-endian (20_memory.md R64). -/
def encode (i : Instr) : List Byte := [opHi (encodeWord i), opLo (encodeWord i)]

end Sys2Proof
end

