-- ==== Sys2Proof/Machine/Engine.lean ====
section
/-! DEFINITION. The phases of a step around the execution of an instruction (40_engine_cycle.md), the load of a program
(70_reset_and_hazards.md R340, R342), and the codes of the faults (60_exceptions.md R300). -/

namespace Sys2Proof.Machine

/-- A key vector of the host normalised: any non-zero byte is pressed (40_engine_cycle.md R110). -/
def pressed (keys : Vector Byte 16) : Vector Bool 16 := ⟨⟨keys.toList.map fun b => b != 0⟩, by simp⟩

/-- Phase 1, in both modes: the input snapshot (40_engine_cycle.md R112). -/
def State.latchKeys (s : State) : State := s.setKeys s.keysCur (pressed s.input.keys)

/-- The two bytes at `pc` as an opcode, with the checks of the fetch in their order (40_engine_cycle.md R113). -/
def State.fetchOp (s : State) : Except FaultReason Word :=
  if s.pc.toNat + 1 > 0xFFF then .error (.fetchOutOfRange s.pc)
  else match s.readMem s.pc.toNat with
    | .error r => .error r
    | .ok hi => match s.readMem (s.pc.toNat + 1) with
      | .error r => .error r
      | .ok lo => .ok (composeOp hi lo)

/-- The rest of the fetch: the decode state is written and `pc` moves past the instruction (40_engine_cycle.md R113). -/
def State.enterExecute (s : State) (op : Word) : State := (s.setOp op).setPc (s.pc + 2)

/-- A timer at the end of a step: decremented when `tick` is 1, saturating at 0 (60_exceptions.md R307). -/
def countDown (tick : Bool) (b : Byte) : Byte := if tick && b != 0 then b - 1 else b

/-- Phase 5: both timers decremented when the step's `tick` is 1 (40_engine_cycle.md R117; 60_exceptions.md R307). -/
def State.tickTimers (s : State) : State :=
  (s.setDt (countDown s.input.tick s.dt)).setSt (countDown s.input.tick s.st)

/-- The step's input is used up: the next step takes the next one (40_engine_cycle.md R110; log entry 2). -/
def State.nextInput (s : State) : State := s.setInputs s.inputs.tail (s.inputNo + 1)

/-- The end of a step that has not faulted. -/
def State.finish (s : State) : State := s.tickTimers.nextInput

/-- The end of a step that began in `s` and executed to `t`: if a fault was taken, everything but the record is as it
was before the step (40_engine_cycle.md R118), else the timers are decremented. -/
def State.settle (s t : State) : State :=
  match t.fault with
  | some f => s.setFault (some f)
  | none => t.finish

/-- A step in WaitingForKey mode: no fetch, the wait body with the retained `x` (40_engine_cycle.md R116). -/
def State.waitStep (s : State) : State := (s.latchKeys.waitBody (opX s.op)).finish

/-- The host's load of a program from 0x200, at most 3584 bytes (70_reset_and_hazards.md R342; logs 14, 18). -/
def State.load (s : State) (rom : List Byte) : State := s.storeBytes progBase.toNat (rom.take 3584)

/-- The code of a fault (60_exceptions.md R300). -/
def FaultReason.code : FaultReason → Nat
  | .unimplemented _ => 1
  | .stackOverflow _ => 2
  | .stackUnderflow _ => 3
  | .memOutOfRange _ => 4
  | .fetchOutOfRange _ => 5
  | .keyIndexOutOfRange _ => 6
  | .uninitializedRead _ => 7

/-- Where the next fetch can be made: `pc`, or the entry point where two bytes do not fit at `pc` (log entry 14). -/
def State.fetchPlace (s : State) : Word := if s.pc.toNat + 1 > 0xFFF then progBase else s.pc

/-- The block ready to fetch `op` in its next step: the word stored big-endian at the fetch place, Ready mode, no fault
(log entry 14). -/
def State.placeWord (s : State) (op : Word) : State :=
  ((((s.setMode .ready).setFault none).setPc s.fetchPlace).storeBytes s.fetchPlace.toNat [opHi op, opLo op])

end Sys2Proof.Machine
end

