-- ==== Sys2Proof/Machine/Step.lean ====
section
/-! DEFINITION. The step (40_engine_cycle.md R120). -/

namespace Sys2Proof.Machine

/-- The end of a step that began in `s`, from what executing its instruction answered. -/
def settleResult (s : State) : Result → Result
  | .next t => .next (s.settle t)
  | .fault r => .fault r
  | .refused r => .refused r

/-- `Step(keys, tick, rnd)` (40_engine_cycle.md R120), the inputs being `s.input`. A faulted block has no step (R111). -/
def step (s : State) : Host.Outcome State Fault Refusal :=
  match s.fault with
  | some f => .fault (.halted f)
  | none =>
    match s.mode with
    | .waitingForKey => .next s.waitStep
    | .ready =>
      match s.latchKeys.fetchOp with
      | .error r => .next (s.takeFault r s.pc none)
      | .ok op =>
        match decodeWord op with
        | none => .next (s.takeFault (.unimplemented op) s.pc (some op))
        | some i => settleResult s (exec i (s.latchKeys.enterExecute op))

/-- `s` with the opcode table's word stored where `step` fetches its next instruction (log entries 14, 15). -/
def State.withFetchWord (s : State) (nbits w : Nat) : State := s.placeWord (tableWord nbits w)

end Sys2Proof.Machine
end

