-- ==== Sys2Proof/Safety.lean ====
section
/-! DEFINITION. The terms claims use: what is unchanged between two states, and the invariants of the block. -/

namespace Sys2Proof.Machine

/-- The parts of the state other than the general registers. -/
inductive Part where
  | params | index | pc | stack | sp | dt | st | display | keys | decodeState | mode | faultRecord | memory | inputs
  deriving DecidableEq, Repr

/-- The part is the same in both states. Memory is the same when every byte reads the same. -/
def Part.same (s t : State) : Part → Prop
  | .params => t.params = s.params
  | .index => t.index = s.index ∧ t.indexWritten = s.indexWritten
  | .pc => t.pc = s.pc
  | .stack => ∀ k, t.stackEntry k = s.stackEntry k
  | .sp => t.sp = s.sp
  | .dt => t.dt = s.dt
  | .st => t.st = s.st
  | .display => t.display = s.display
  | .keys => t.keysCur = s.keysCur ∧ t.keysPrev = s.keysPrev
  | .decodeState => t.op = s.op
  | .mode => t.mode = s.mode
  | .faultRecord => t.fault = s.fault
  | .memory => ∀ a, t.peek a = s.peek a
  | .inputs => t.inputs = s.inputs ∧ t.inputNo = s.inputNo

/-- From `s` to `t` nothing changes but the registers `regs` and the parts `parts`. -/
def Frame (regs : List Reg) (parts : List Part) (s t : State) : Prop :=
  (∀ r : Reg, r ∉ regs → t.v[r.val] = s.v[r.val] ∧ t.vWritten[r.val] = s.vWritten[r.val]) ∧
  (∀ p : Part, p ∉ parts → p.same s t)

/-- `V[x]` holds `b` and is written. -/
def HoldsV (t : State) (x : Reg) (b : Byte) : Prop := t.v[x.val] = b ∧ t.vWritten[x.val] = true

/-- `I` holds `w` and is written. -/
def HoldsI (t : State) (w : Word) : Prop := t.index = w ∧ t.indexWritten = true

/-- Executing in `s` takes the fault `r`: only the record is written (40_engine_cycle.md R118; 60_exceptions.md R301). -/
def FaultsWith (res : Result) (s : State) (r : FaultReason) : Prop :=
  res = .next { s with fault := some { reason := r, pc := s.pc - 2, op := some s.op } }

/-- The bit `b` of row `r` of a sprite drawn at (`cx`, `cy`) is 1 and lands on the cell (`px`, `py`): at the coordinates
themselves when clipping, modulo 64 and 32 otherwise (43_display.md R211). -/
def SpriteCovers (clip : Bool) (cx cy : Nat) (rows : List Byte) (px : Fin 64) (py : Fin 32) : Prop :=
  ∃ r, ∃ h : r < rows.length, ∃ b < 8, rows[r].getLsbD (7 - b) = true ∧
    if clip then px.val = cx + b ∧ py.val = cy + r else px.val = (cx + b) % 64 ∧ py.val = (cy + r) % 32

/-- `rows` are the `n` bytes from `I` on, all inside the array and written; `I` matters only when there is a row. -/
def SpriteBytes (s : State) (n : Nibble) (rows : List Byte) : Prop :=
  rows.length = n.toNat ∧ (n ≠ 0 → s.indexWritten = true) ∧
  ∀ r, ∀ h : r < rows.length, s.index.toNat + r ≤ 0xFFF ∧ s.peek (s.index.toNat + r) = some rows[r]

/-- The address is inside the array and its byte is written. -/
def Readable (s : State) (a : Nat) : Prop := a ≤ 0xFFF ∧ s.peek a ≠ none

/-- The fault of a data read at an address that is not readable (20_memory.md R62). -/
def readFault (a : Nat) : FaultReason := if a > 0xFFF then .memOutOfRange a else .uninitializedRead (.mem a)

/-- The registers an instruction names as its destination (10_state.md R21 lists the implicit writes of `VF` apart). -/
def destRegs : Instr → List Reg
  | .ldImm x _ | .addImm x _ | .ldReg x _ | .orReg x _ | .andReg x _ | .xorReg x _ | .addReg x _ | .subReg x _
  | .shr x _ | .subnReg x _ | .shl x _ | .rnd x _ | .ldVxDt x | .ldVxK x => [x]
  | .loadRegs x => regsUpTo x
  | .cls | .ret | .jp _ | .call _ | .seImm _ _ | .sneImm _ _ | .seReg _ _ | .sneReg _ _ | .ldI _ | .jpV0 _ _
  | .drw _ _ _ | .skp _ | .sknp _ | .ldDtVx _ | .ldStVx _ | .addI _ | .ldF _ | .ldB _ | .storeRegs _ => []

/-- The state with the bit `Q_DISPSYNC` of `QUIRKS` inverted (10_state.md R33). -/
def flipDispSync (s : State) : State := { s with params := { s.params with quirks := s.params.quirks ^^^ 0x10#6 } }

/-- What a step answers, with every next state changed by `f`. -/
def mapNext (f : State → State) : Result → Result
  | .next t => .next (f t)
  | .fault r => .fault r
  | .refused r => .refused r

/-- The key `k` is the lowest whose state differs between the snapshots `prev` and `cur` (44_input_timers.md R236). -/
def FirstTransition (prev cur : Vector Bool 16) (k : Reg) : Prop :=
  cur[k.val] ≠ prev[k.val] ∧ ∀ j : Reg, j < k → cur[j.val] = prev[j.val]

/-- The memory is in its canonical form. -/
abbrev MemoryCanonical (s : State) : Prop := Memory.wf s.params s.mem = true

/-- The control part of the state is one a run can reach: `pc` is at most 0x10FE (41_control_flow.md R148; decision
D29); every stack entry in use was pushed by a CALL, so it is at most 0x1000; while waiting, the decode state is an
FX0A opcode (10_state.md R29); the stack's written entries are in order and inside the array (R24); a fault record
names the `pc` it left (R32, R118). -/
structure ControlSound (s : State) : Prop where
  pcBound : s.pc.toNat ≤ 0x10FE
  stackBound : ∀ k, k < s.sp.toNat → ∃ w, cellAt s.stack k = some w ∧ w.toNat ≤ 0x1000
  stackForm : rising s.stack = true ∧ s.stack.all (fun c => decide (c.1 < 255)) = true
  waiting : s.mode = .waitingForKey → ∃ x, decodeWord s.op = some (.ldVxK x)
  record : ∀ f, s.fault = some f → f.pc = s.pc

/-- While the block waits, the bytes at `pc - 2` are still the retained opcode (10_state.md R30). -/
def RetainedOpInMemory (s : State) : Prop :=
  s.mode = .waitingForKey →
    2 ≤ s.pc.toNat ∧ s.pc.toNat ≤ 0x1000 ∧
    s.peek (s.pc.toNat - 2) = some (opHi s.op) ∧ s.peek (s.pc.toNat - 1) = some (opLo s.op)

end Sys2Proof.Machine
end

