-- ==== Sys2Proof/Certificates/Slice0/Obligations.lean ====
section
/-! DEFINITION. The statements for the provers. Registers are read through `v` and `vWritten`, memory through `peek`,
and what an instruction leaves unchanged is said by `Frame` (Safety.lean). -/

open Sys2Proof Sys2Proof.Machine

/-! ### Encoding -/

/-- Words written out from the encodings of 30_encoding.md section 5 and 95_test_vectors.md (T37, T50, T72, T161). -/
def Obligations.WrittenWordsDecode : Prop :=
  decodeWord 0b0110000000000101#16 = some (.ldImm 0 5) ∧
  decodeWord 0b1101000000000101#16 = some (.drw 0 0 5) ∧
  decodeWord 0b0011001000010000#16 = some (.seImm 2 0x10) ∧
  decodeWord 0b1000000000010100#16 = some (.addReg 0 1) ∧
  decodeWord 0b1011001011110000#16 = some (.jpV0 2 0x2F0) ∧
  decodeWord 0b1111001001010101#16 = some (.storeRegs 2) ∧
  decodeWord 0b1110000110011110#16 = some (.skp 1) ∧
  decodeWord 0b0000000011101110#16 = some .ret ∧
  decodeWord 0b0101000100100001#16 = none

/-- Every field of an opcode is the bits the rule gives it (R81). -/
def Obligations.OpcodeFieldsAreTheirBits : Prop :=
  ∀ op : Word,
    (opFamily op).toNat = op.toNat / 4096 ∧ (opX op).val = op.toNat / 256 % 16 ∧ (opY op).val = op.toNat / 16 % 16 ∧
    (opN op).toNat = op.toNat % 16 ∧ (opNN op).toNat = op.toNat % 256 ∧ (opNNN op).toNat = op.toNat % 4096

/-- Decoding an encoded well-formed instruction gives it back, whatever follows it, for all 34 instructions. -/
def Obligations.DecodeOfEncodeIsIdentity : Prop :=
  ∀ (i : Instr) (rest : List Byte), i.wellFormed = true → decode (encode i ++ rest) = .ok (i, rest)

/-- A word that decodes is the encoding of what it decodes to, which is well-formed: each instruction has one word. -/
def Obligations.EncodeOfDecodeIsIdentity : Prop :=
  ∀ (op : Word) (i : Instr), decodeWord op = some i → i.wellFormed = true ∧ encodeWord i = op

/-- The unimplemented words are those of the table of R87, which rests on the masks of decision D5. -/
def Obligations.UnimplementedWordsAreTheTable : Prop :=
  ∀ op : Word, decodeWord op = none ↔
    (op.toNat / 4096 = 0x0 ∧ op ≠ 0x00E0 ∧ op ≠ 0x00EE) ∨
    (op.toNat / 4096 = 0x5 ∧ op.toNat % 16 ≠ 0) ∨
    (op.toNat / 4096 = 0x8 ∧ op.toNat % 16 ∈ [0x8, 0x9, 0xA, 0xB, 0xC, 0xD, 0xF]) ∨
    (op.toNat / 4096 = 0x9 ∧ op.toNat % 16 ≠ 0) ∨
    (op.toNat / 4096 = 0xE ∧ op.toNat % 256 ∉ [0x9E, 0xA1]) ∨
    (op.toNat / 4096 = 0xF ∧ op.toNat % 256 ∉ [0x07, 0x0A, 0x15, 0x18, 0x1E, 0x29, 0x33, 0x55, 0x65])

/-! ### Construction -/

/-- The block after construction, for every value of its parameters (R340; decision D17 for the cleared marks and D18
for the key snapshots). Nothing is said of the values behind the cleared marks. -/
def Obligations.ConstructionLeavesTheResetValues : Prop :=
  (∀ p : Params, let s := State.constructed p
    s.pc = 0x200 ∧ s.sp = 0 ∧ s.dt = 0 ∧ s.st = 0 ∧ s.mode = .ready ∧ s.fault = none ∧ s.params = p ∧
    s.indexWritten = false ∧ (∀ r : Reg, s.vWritten[r.val] = false) ∧
    (∀ px py, s.display.cell px py = false) ∧
    (∀ k : Reg, s.keysCur[k.val] = false ∧ s.keysPrev[k.val] = false) ∧
    (∀ a, s.peek a = if p.fontBase.val ≤ a ∧ a < p.fontBase.val + 80
      then some (fontByte p (a - p.fontBase.val)) else none) ∧
    [fontByte p 0, fontByte p 1, fontByte p 2, fontByte p 3, fontByte p 4] = [0xF0, 0x90, 0x90, 0x90, 0xF0]) ∧
  State.reset = State.constructed Config.params

/-- The host's load writes the program bytes from 0x200 on and nothing else (R340 step 9, R342). -/
def Obligations.LoadWritesTheProgram : Prop :=
  ∀ (p : Params) (rom : List Byte), rom.length ≤ 3584 →
    (∀ a, ((State.constructed p).load rom).peek a =
      if 0x200 ≤ a ∧ a < 0x200 + rom.length then rom[a - 0x200]? else (State.constructed p).peek a) ∧
    Frame [] [.memory] (State.constructed p) ((State.constructed p).load rom) ∧
    MemoryCanonical ((State.constructed p).load rom)

/-- With no program loaded, the first step faults on the unwritten byte at the entry point (T180; R341). -/
def Obligations.FirstStepWithoutProgramFaults : Prop :=
  ∀ p : Params, step (State.constructed p) = .next { State.constructed p with
    fault := some { reason := .uninitializedRead (.mem 0x200), pc := 0x200, op := none } }

/-! ### The step -/

/-- When the two bytes at `pc` decode to an instruction, the step is its execution on the state with the keys latched,
the decode state written and `pc` moved on; then the timers are decremented and the step's input used up, or, if the
execution took a fault, everything but the record is as it was (R112 to R118, R120; the input schedule is the model's
own, log entry 2). -/
def Obligations.StepRunsTheDecodedInstruction : Prop :=
  ∀ (s u t : State) (hi lo : Byte) (i : Instr),
    s.fault = none → s.mode = .ready → s.pc.toNat + 1 ≤ 0xFFF →
    s.peek s.pc.toNat = some hi → s.peek (s.pc.toNat + 1) = some lo → decode [hi, lo] = .ok (i, []) →
    u = { s with keysPrev := s.keysCur, keysCur := pressed s.input.keys, op := composeOp hi lo, pc := s.pc + 2 } →
    exec i u = .next t →
    step s = .next (match t.fault with
      | none => { t with
          dt := countDown t.input.tick t.dt, st := countDown t.input.tick t.st,
          inputs := t.inputs.tail, inputNo := t.inputNo + 1 }
      | some f => { s with fault := some f })

/-- The opcode is fetched big-endian: the byte at `pc` is bits 15:8 (R64). -/
def Obligations.FetchComposesBigEndian : Prop :=
  ∀ (s : State) (hi lo : Byte), s.pc.toNat + 1 ≤ 0xFFF →
    s.peek s.pc.toNat = some hi → s.peek (s.pc.toNat + 1) = some lo →
    ∃ op, s.fetchOp = .ok op ∧ op.toNat = 256 * hi.toNat + lo.toNat

/-- The faults of the fetch, in their order: out of range, then the byte at `pc`, then the one after it
(R113, R303; decisions D14, D17). -/
def Obligations.FetchFaultsInOrder : Prop :=
  ∀ s : State, s.fault = none → s.mode = .ready →
    (0xFFF < s.pc.toNat + 1 → step s = .next { s with
      fault := some { reason := .fetchOutOfRange s.pc, pc := s.pc, op := none } }) ∧
    (s.pc.toNat + 1 ≤ 0xFFF → s.peek s.pc.toNat = none → step s = .next { s with
      fault := some { reason := .uninitializedRead (.mem s.pc.toNat), pc := s.pc, op := none } }) ∧
    (s.pc.toNat + 1 ≤ 0xFFF → s.peek s.pc.toNat ≠ none → s.peek (s.pc.toNat + 1) = none → step s = .next { s with
      fault := some { reason := .uninitializedRead (.mem (s.pc.toNat + 1)), pc := s.pc, op := none } })

/-- A fetched word that misses the dispatch table is the fault Unimplemented, never a no-op (R87, R114). -/
def Obligations.UnimplementedWordFaults : Prop :=
  ∀ (s : State) (hi lo : Byte), s.fault = none → s.mode = .ready → s.pc.toNat + 1 ≤ 0xFFF →
    s.peek s.pc.toNat = some hi → s.peek (s.pc.toNat + 1) = some lo →
    decode [hi, lo] = .error (.unimplemented (composeOp hi lo)) →
    step s = .next { s with
      fault := some { reason := .unimplemented (composeOp hi lo), pc := s.pc, op := some (composeOp hi lo) } }

/-- A step that faults changes nothing but the record, which holds the `pc` before the step and the opcode if one was
fetched (R118, decision D28). -/
def Obligations.FaultingStepRollsBack : Prop :=
  ∀ (s t : State) (f : FaultRecord), step s = .next t → t.fault = some f →
    t = { s with fault := some f } ∧ f.pc = s.pc ∧ (∀ op, f.op = some op ↔ s.fetchOp = .ok op)

/-- A faulted block takes no further step (R111). That the model's step then answers a fault is log entry 1. -/
def Obligations.FaultedBlockTakesNoStep : Prop :=
  ∀ (s : State) (f : FaultRecord), s.fault = some f → step s = .fault (.halted f)

/-- A block without a fault record always has a step: it completes or takes a fault (R110, R121). -/
def Obligations.UnfaultedBlockAlwaysSteps : Prop :=
  ∀ s : State, s.fault = none → ∃ t, step s = .next t

/-- The input snapshot (R112): in every step that completes, `keys_prev` takes the old `keys_cur` and `keys_cur` the
step's keys; and what the step executes, an instruction or the wait body, runs in the state that already holds both: the
step's result is that execution's, with only the timers and the used-up input after it. `pressed` is the key vector as
R110 takes it; the decode state and `pc` are R113's and the wait body R116's; the timers' place is decision D22, and the
input schedule is the model's own choice, log entry 2. -/
def Obligations.KeysAreLatchedFirst : Prop :=
  (∀ s t : State, step s = .next t → t.fault = none →
    t.keysPrev = s.keysCur ∧ t.keysCur = pressed s.input.keys) ∧
  (∀ (s t : State) (op : Word) (i : Instr), s.fault = none → s.mode = .ready → s.fetchOp = .ok op →
    decodeWord op = some i → step s = .next t → t.fault = none →
    ∃ u, exec i { s with
        keysPrev := s.keysCur, keysCur := pressed s.input.keys, op := op, pc := s.pc + 2 } = .next u ∧
      t = { u with
        dt := countDown s.input.tick u.dt, st := countDown s.input.tick u.st,
        inputs := s.inputs.tail, inputNo := s.inputNo + 1 }) ∧
  (∀ s t : State, s.mode = .waitingForKey → step s = .next t →
    let u := State.waitBody { s with keysPrev := s.keysCur, keysCur := pressed s.input.keys } (opX s.op)
    t = { u with
      dt := countDown s.input.tick u.dt, st := countDown s.input.tick u.st,
      inputs := s.inputs.tail, inputNo := s.inputNo + 1 })

/-- The timers in a step that completes (R117, R307; decision D22): `DT` and `ST` are at most one less, saturating at 0,
in a step whose `tick` is 1, counted from the value FX15 or FX18 wrote in that step. -/
def Obligations.TimersCountDownLast : Prop :=
  ∀ s t : State, step s = .next t → t.fault = none →
    let down := fun (b : Byte) => if s.input.tick then b.toNat - 1 else b.toNat
    ((s.mode = .waitingForKey ∨ ∀ op x, s.fetchOp = .ok op → decodeWord op ≠ some (.ldDtVx x)) →
      t.dt.toNat = down s.dt) ∧
    ((s.mode = .waitingForKey ∨ ∀ op x, s.fetchOp = .ok op → decodeWord op ≠ some (.ldStVx x)) →
      t.st.toNat = down s.st) ∧
    (∀ op x, s.mode = .ready → s.fetchOp = .ok op → decodeWord op = some (.ldDtVx x) →
      t.dt.toNat = down s.v[x.val]) ∧
    (∀ op x, s.mode = .ready → s.fetchOp = .ok op → decodeWord op = some (.ldStVx x) →
      t.st.toNat = down s.v[x.val])

/-- A step while waiting for a key (R116, R236; decision D20 for the lowest key): nothing is fetched, `pc` and the
decode state stay, and the body runs with the retained `x`. -/
def Obligations.WaitingStepRunsTheWaitBody : Prop :=
  ∀ s : State, s.fault = none → s.mode = .waitingForKey →
    (∀ k : Reg, FirstTransition s.keysCur (pressed s.input.keys) k →
      ∃ t, step s = .next t ∧ HoldsV t (opX s.op) (BitVec.ofNat 8 k.val) ∧
        (t.mode = .ready ↔ s.keysCur[k.val] = true ∧ s.input.keys[k.val] = 0) ∧
        Frame [opX s.op] [.mode, .keys, .dt, .st, .inputs] s t) ∧
    ((∀ k : Reg, (pressed s.input.keys)[k.val] = s.keysCur[k.val]) →
      ∃ t, step s = .next t ∧ t.mode = .waitingForKey ∧ Frame [] [.keys, .dt, .st, .inputs] s t)

/-- The engine mode (R119): every row of the rule's table. A release is `keys_prev` 1 and `keys_cur` 0. -/
def Obligations.ModeChangesOnlyInTheWaitBody : Prop :=
  ∀ s t : State, step s = .next t →
    (∀ f, t.fault = some f → t.mode = s.mode) ∧
    (t.fault = none →
      (s.mode = .ready → (∀ op x, s.fetchOp = .ok op → decodeWord op ≠ some (.ldVxK x)) → t.mode = .ready) ∧
      ((s.mode = .waitingForKey ∨ ∃ op x, s.fetchOp = .ok op ∧ decodeWord op = some (.ldVxK x)) →
        (t.mode = .ready ↔
          ∃ k, FirstTransition s.keysCur (pressed s.input.keys) k ∧
            s.keysCur[k.val] = true ∧ (pressed s.input.keys)[k.val] = false)))

/-! ### Rules about the whole block -/

/-- No step changes `QUIRKS`, `FONT_BASE` or `FONT_DATA` (R33 "fixed for the interpreter's lifetime", R36). That they
stand in the state is log entry 3. -/
def Obligations.ParametersNeverChange : Prop :=
  ∀ s t : State, step s = .next t → t.params = s.params

/-- Only FX33 and FX55 write memory (R66). -/
def Obligations.OnlyStoresWriteMemory : Prop :=
  ∀ (i : Instr) (s t : State), exec i s = .next t → (∀ x, i ≠ .ldB x) → (∀ x, i ≠ .storeRegs x) →
    ∀ a, t.peek a = s.peek a

/-- Only CALL and RET use the stack, and only CALL writes an entry (R24, R25). -/
def Obligations.OnlyCallAndRetUseTheStack : Prop :=
  ∀ (i : Instr) (s t : State), exec i s = .next t → (∀ nnn, i ≠ .call nnn) →
    (∀ k, t.stackEntry k = s.stackEntry k) ∧ (i ≠ .ret → t.sp = s.sp)

/-- Only CLS and DRW write the display (R27). -/
def Obligations.OnlyClsAndDrwWriteTheDisplay : Prop :=
  ∀ (i : Instr) (s t : State), exec i s = .next t → i ≠ .cls → (∀ x y n, i ≠ .drw x y n) → t.display = s.display

/-- Written marks are never cleared (R35, decision D17): of registers, of `I`, and of memory bytes. -/
def Obligations.WrittenMarksAreNeverCleared : Prop :=
  ∀ s t : State, MemoryCanonical s → step s = .next t →
    (∀ r : Reg, s.vWritten[r.val] = true → t.vWritten[r.val] = true) ∧
    (s.indexWritten = true → t.indexWritten = true) ∧
    (∀ a, s.peek a ≠ none → t.peek a ≠ none)

/-- `Q_DISPSYNC` has no effect (R33 "no rule reads it", decision D3): two blocks that differ only in that bit take steps
that differ only in that bit. -/
def Obligations.DispSyncBitHasNoEffect : Prop :=
  ∀ s : State, step (flipDispSync s) = mapNext flipDispSync (step s)

/-- The implicit writes of `VF` are exactly those of R21's table, they come after the destination's write, and `VF` is
unwritten after construction. -/
def Obligations.ImplicitFlagWritesAreTheTable : Prop :=
  (∀ p : Params, (State.constructed p).vWritten[15] = false) ∧
  ∀ (i : Instr) (s t : State), s.fault = none → exec i s = .next t → t.fault = none →
    match i with
    | .orReg x _ | .andReg x _ | .xorReg x _ =>
      if s.qLogic then HoldsV t VF 0 else x ≠ VF → t.v[15] = s.v[15] ∧ t.vWritten[15] = s.vWritten[15]
    | .addReg x y => HoldsV t VF (if s.v[x.val].toNat + s.v[y.val].toNat > 255 then 1 else 0)
    | .subReg x y => HoldsV t VF (if s.v[x.val].toNat > s.v[y.val].toNat then 1 else 0)
    | .subnReg x y => HoldsV t VF (if s.v[y.val].toNat > s.v[x.val].toNat then 1 else 0)
    | .shr x y => HoldsV t VF (if s.v[(if s.qShift then y else x).val].toNat % 2 = 1 then 1 else 0)
    | .shl x y => HoldsV t VF (if s.v[(if s.qShift then y else x).val].toNat ≥ 128 then 1 else 0)
    | .drw _ _ _ => (t.v[15] = 1 ∨ t.v[15] = 0) ∧ t.vWritten[15] = true ∧
        (t.v[15] = 1 ↔ ∃ px py, s.display.cell px py = true ∧ t.display.cell px py = false)
    | .addI x => HoldsV t VF (if s.index.toNat + s.v[x.val].toNat > 0xFFF then 1 else 0)
    | j => VF ∉ destRegs j → t.v[15] = s.v[15] ∧ t.vWritten[15] = s.vWritten[15]

/-- The presets set their bits (R34), and the consequences the rule states: under ORIGINAL the logic instructions clear
`VF`, under SCHIP and XOCHIP they do not; under ORIGINAL and XOCHIP a shift takes `V[y]`, under SCHIP `V[x]`. -/
def Obligations.PresetsSetTheirBits : Prop :=
  Config.original = 0x3F ∧ Config.schip = 0x20 ∧ Config.xochip = 0x07 ∧
  (∀ s : State, s.params.quirks = Config.original →
    s.qShift ∧ s.qLoadStore ∧ s.qJump ∧ s.qLogic ∧ s.qClip ∧ s.params.quirks.getLsbD 4) ∧
  (∀ s : State, s.params.quirks = Config.schip →
    ¬ s.qShift ∧ ¬ s.qLoadStore ∧ ¬ s.qJump ∧ ¬ s.qLogic ∧ s.qClip ∧ ¬ s.params.quirks.getLsbD 4) ∧
  (∀ s : State, s.params.quirks = Config.xochip →
    s.qShift ∧ s.qLoadStore ∧ s.qJump ∧ ¬ s.qLogic ∧ ¬ s.qClip ∧ ¬ s.params.quirks.getLsbD 4) ∧
  (∀ (s : State) (x y : Reg), x ≠ VF → s.vWritten[x.val] = true → s.vWritten[y.val] = true →
    ∀ i ∈ [Instr.orReg x y, .andReg x y, .xorReg x y], ∃ t, exec i s = .next t ∧
      (s.params.quirks = Config.original → HoldsV t VF 0) ∧
      (s.params.quirks = Config.schip ∨ s.params.quirks = Config.xochip → t.v[15] = s.v[15])) ∧
  (∀ (s : State) (x y : Reg), x ≠ VF → s.vWritten[x.val] = true → s.vWritten[y.val] = true →
    ∃ t u, exec (.shr x y) s = .next t ∧ exec (.shl x y) s = .next u ∧
      (s.params.quirks = Config.original ∨ s.params.quirks = Config.xochip →
        t.v[x.val] = s.v[y.val] >>> 1 ∧ u.v[x.val] = s.v[y.val] <<< 1) ∧
      (s.params.quirks = Config.schip →
        t.v[x.val] = s.v[x.val] >>> 1 ∧ u.v[x.val] = s.v[x.val] <<< 1))

/-! ### Invariants -/

/-- The block after construction meets the invariants. -/
def Obligations.ConstructionMeetsTheInvariants : Prop :=
  ∀ p : Params, MemoryCanonical (State.constructed p) ∧ ControlSound (State.constructed p) ∧
    RetainedOpInMemory (State.constructed p)

/-- Every step keeps the memory in its canonical form, inside the 4096-byte array (R60). -/
def Obligations.StepKeepsMemoryCanonical : Prop :=
  ∀ s t : State, MemoryCanonical s → step s = .next t → MemoryCanonical t

/-- Every step keeps the control state sound: `pc` at most 0x10FE, the stack entries in use pushed by calls, an FX0A
opcode retained while waiting, the fault record at the `pc` it left (R23 to R25, R29, R32; decision D29). -/
def Obligations.StepKeepsControlSound : Prop :=
  ∀ s t : State, ControlSound s → step s = .next t → ControlSound t

/-- While the block waits, memory at `pc - 2` still holds the retained opcode (R30, which the spec derives). -/
def Obligations.WaitingKeepsTheOpcodeInMemory : Prop :=
  ∀ s t : State, RetainedOpInMemory s → step s = .next t → RetainedOpInMemory t

/-! ### Control transfer -/

/-- RET pops the return address, and the popped entry keeps its value; with an empty stack it faults (R141; D15). -/
def Obligations.RetPopsTheReturnAddress : Prop :=
  ∀ s : State,
    (s.sp ≠ 0 → ∃ t, exec .ret s = .next t ∧ t.sp.toNat = s.sp.toNat - 1 ∧
      t.pc = s.stackEntry (s.sp.toNat - 1) ∧ Frame [] [.pc, .sp] s t) ∧
    (s.sp = 0 → FaultsWith (exec .ret s) s (.stackUnderflow s.sp))

/-- JP sets `pc` to the 12-bit address (R142). -/
def Obligations.JpSetsThePc : Prop :=
  ∀ (nnn : Addr) (s : State), ∃ t, exec (.jp nnn) s = .next t ∧ t.pc.toNat = nnn.toNat ∧ Frame [] [.pc] s t

/-- CALL pushes the advanced `pc`; with 255 entries in use it faults (R143; D15). -/
def Obligations.CallPushesTheReturnAddress : Prop :=
  ∀ (nnn : Addr) (s : State),
    (s.sp ≠ 255 → ∃ t, exec (.call nnn) s = .next t ∧ t.pc.toNat = nnn.toNat ∧ t.sp.toNat = s.sp.toNat + 1 ∧
      t.stackEntry s.sp.toNat = s.pc ∧ (∀ k, k ≠ s.sp.toNat → t.stackEntry k = s.stackEntry k) ∧
      Frame [] [.pc, .sp, .stack] s t) ∧
    (s.sp = 255 → FaultsWith (exec (.call nnn) s) s (.stackOverflow s.sp))

/-- RET after CALL resumes after the CALL (R141, R143). -/
def Obligations.RetUndoesCall : Prop :=
  ∀ (nnn : Addr) (s : State), s.sp ≠ 255 → ∃ t u, exec (.call nnn) s = .next t ∧ exec .ret t = .next u ∧
    u.pc = s.pc ∧ u.sp = s.sp ∧ Frame [] [.stack] s u

/-- The skips on an immediate: two bytes more when the condition holds, none otherwise (R140, R144, R145). -/
def Obligations.ImmediateSkips : Prop :=
  ∀ (x : Reg) (nn : Byte) (s : State),
    (s.vWritten[x.val] = true →
      (∃ t, exec (.seImm x nn) s = .next t ∧ t.pc = (if s.v[x.val] = nn then s.pc + 2 else s.pc) ∧
        Frame [] [.pc] s t) ∧
      (∃ t, exec (.sneImm x nn) s = .next t ∧ t.pc = (if s.v[x.val] = nn then s.pc else s.pc + 2) ∧
        Frame [] [.pc] s t)) ∧
    (s.vWritten[x.val] = false →
      FaultsWith (exec (.seImm x nn) s) s (.uninitializedRead (.v x)) ∧
      FaultsWith (exec (.sneImm x nn) s) s (.uninitializedRead (.v x)))

/-- The skips on two registers (R140, R146, R147); `V[x]` is read before `V[y]`. -/
def Obligations.RegisterSkips : Prop :=
  ∀ (x y : Reg) (s : State),
    (s.vWritten[x.val] = true → s.vWritten[y.val] = true →
      (∃ t, exec (.seReg x y) s = .next t ∧ t.pc = (if s.v[x.val] = s.v[y.val] then s.pc + 2 else s.pc) ∧
        Frame [] [.pc] s t) ∧
      (∃ t, exec (.sneReg x y) s = .next t ∧ t.pc = (if s.v[x.val] = s.v[y.val] then s.pc else s.pc + 2) ∧
        Frame [] [.pc] s t)) ∧
    (∀ i ∈ [Instr.seReg x y, .sneReg x y],
      (s.vWritten[x.val] = false → FaultsWith (exec i s) s (.uninitializedRead (.v x))) ∧
      (s.vWritten[x.val] = true → s.vWritten[y.val] = false → FaultsWith (exec i s) s (.uninitializedRead (.v y))))

/-- BNNN jumps to `nnn` plus `V[0]` under `Q_JUMP`, plus `V[x]` otherwise, not reduced to 12 bits (R148; D29). -/
def Obligations.JumpWithOffset : Prop :=
  ∀ (x : Reg) (nnn : Addr) (s : State), let r : Reg := if s.qJump then 0 else x
    (s.vWritten[r.val] = true → ∃ t, exec (.jpV0 x nnn) s = .next t ∧
      t.pc.toNat = nnn.toNat + s.v[r.val].toNat ∧ Frame [] [.pc] s t) ∧
    (s.vWritten[r.val] = false → FaultsWith (exec (.jpV0 x nnn) s) s (.uninitializedRead (.v r)))

/-! ### Registers and arithmetic -/

/-- 6XNN, its encoding and its effect (R172). -/
def Obligations.LoadImmediate : Prop :=
  ∀ (x : Reg) (nn : Byte),
    decodeWord (BitVec.ofNat 16 (0x6000 + 256 * x.val + nn.toNat)) = some (.ldImm x nn) ∧
    ∀ s : State, ∃ t, exec (.ldImm x nn) s = .next t ∧ HoldsV t x nn ∧ Frame [x] [] s t

/-- 7XNN, its encoding and its effect: the sum wraps and no flag is written (R173). -/
def Obligations.AddImmediate : Prop :=
  ∀ (x : Reg) (nn : Byte),
    decodeWord (BitVec.ofNat 16 (0x7000 + 256 * x.val + nn.toNat)) = some (.addImm x nn) ∧
    ∀ s : State,
      (s.vWritten[x.val] = true → ∃ t, exec (.addImm x nn) s = .next t ∧
        HoldsV t x (BitVec.ofNat 8 ((s.v[x.val].toNat + nn.toNat) % 256)) ∧ Frame [x] [] s t) ∧
      (s.vWritten[x.val] = false → FaultsWith (exec (.addImm x nn) s) s (.uninitializedRead (.v x)))

/-- 8XY0 copies a register and writes no flag (R174; decision D7). -/
def Obligations.RegisterCopy : Prop :=
  ∀ (x y : Reg) (s : State),
    (s.vWritten[y.val] = true → ∃ t, exec (.ldReg x y) s = .next t ∧ HoldsV t x s.v[y.val] ∧ Frame [x] [] s t) ∧
    (s.vWritten[y.val] = false → FaultsWith (exec (.ldReg x y) s) s (.uninitializedRead (.v y)))

/-- OR, AND and XOR (R175 to R177): bit by bit into `V[x]`; under `Q_LOGIC` `VF` then becomes 0, and it is the flag that
stays when `x` is 15; otherwise `VF` is not written as a flag. -/
def Obligations.BitwiseLogic : Prop :=
  ∀ (x y : Reg) (s : State), s.vWritten[x.val] = true → s.vWritten[y.val] = true →
    ∀ c ∈ [(Instr.orReg x y, s.v[x.val] ||| s.v[y.val]), (.andReg x y, s.v[x.val] &&& s.v[y.val]),
        (.xorReg x y, s.v[x.val] ^^^ s.v[y.val])],
      ∃ t, exec c.1 s = .next t ∧
        (s.qLogic = true → HoldsV t VF 0 ∧ (x ≠ VF → HoldsV t x c.2) ∧ Frame [x, VF] [] s t) ∧
        (s.qLogic = false → HoldsV t x c.2 ∧ Frame [x] [] s t)

/-- ADD, SUB and SUBN of two registers (R170, R171, R178, R179, R181; decisions D8, D9): the result mod 256 into `V[x]`,
then the carry, or 1 iff the difference is strictly positive, into `VF`. -/
def Obligations.AddAndSubtract : Prop :=
  ∀ (x y : Reg) (s : State), s.vWritten[x.val] = true → s.vWritten[y.val] = true →
    let a := s.v[x.val].toNat
    let b := s.v[y.val].toNat
    (∃ t, exec (.addReg x y) s = .next t ∧ (x ≠ VF → HoldsV t x (BitVec.ofNat 8 ((a + b) % 256))) ∧
      HoldsV t VF (if a + b > 255 then 1 else 0) ∧ Frame [x, VF] [] s t) ∧
    (∃ t, exec (.subReg x y) s = .next t ∧ (x ≠ VF → HoldsV t x (BitVec.ofNat 8 ((256 + a - b) % 256))) ∧
      HoldsV t VF (if a > b then 1 else 0) ∧ Frame [x, VF] [] s t) ∧
    (∃ t, exec (.subnReg x y) s = .next t ∧ (x ≠ VF → HoldsV t x (BitVec.ofNat 8 ((256 + b - a) % 256))) ∧
      HoldsV t VF (if b > a then 1 else 0) ∧ Frame [x, VF] [] s t)

/-- The two-register instructions fault on an unwritten `V[x]`, then on an unwritten `V[y]` (R175 to R179, R181; D17). -/
def Obligations.TwoRegisterReadFaults : Prop :=
  ∀ (x y : Reg) (s : State),
    ∀ i ∈ [Instr.orReg x y, .andReg x y, .xorReg x y, .addReg x y, .subReg x y, .subnReg x y],
      (s.vWritten[x.val] = false → FaultsWith (exec i s) s (.uninitializedRead (.v x))) ∧
      (s.vWritten[x.val] = true → s.vWritten[y.val] = false → FaultsWith (exec i s) s (.uninitializedRead (.v y)))

/-- The shifts by one (R180, R182; D8): of `V[y]` under `Q_SHIFT`, of `V[x]` otherwise, the bit moved out into `VF`;
only the register that is shifted is read. -/
def Obligations.ShiftsByOne : Prop :=
  ∀ (x y : Reg) (s : State), let r : Reg := if s.qShift then y else x
    let a := s.v[r.val].toNat
    (s.vWritten[r.val] = true →
      (∃ t, exec (.shr x y) s = .next t ∧ (x ≠ VF → HoldsV t x (BitVec.ofNat 8 (a / 2))) ∧
        HoldsV t VF (BitVec.ofNat 8 (a % 2)) ∧ Frame [x, VF] [] s t) ∧
      (∃ t, exec (.shl x y) s = .next t ∧ (x ≠ VF → HoldsV t x (BitVec.ofNat 8 (2 * a % 256))) ∧
        HoldsV t VF (BitVec.ofNat 8 (a / 128)) ∧ Frame [x, VF] [] s t)) ∧
    (s.vWritten[r.val] = false →
      FaultsWith (exec (.shr x y) s) s (.uninitializedRead (.v r)) ∧
      FaultsWith (exec (.shl x y) s) s (.uninitializedRead (.v r)))

/-- ANNN sets `I`, its upper four bits 0 (R183). -/
def Obligations.LoadIndex : Prop :=
  ∀ (nnn : Addr) (s : State), ∃ t, exec (.ldI nnn) s = .next t ∧ HoldsI t (BitVec.ofNat 16 nnn.toNat) ∧
    Frame [] [.index] s t

/-- CXNN writes the step's random byte masked, whatever that byte is (R184; D23; the input is log entry 2). -/
def Obligations.RandomByteMasked : Prop :=
  ∀ (x : Reg) (nn : Byte) (s : State), ∃ t, exec (.rnd x nn) s = .next t ∧ HoldsV t x (s.input.rnd &&& nn) ∧
    Frame [x] [] s t

/-! ### Display -/

/-- CLS clears every cell and writes nothing else (R210). -/
def Obligations.ClsClearsEveryCell : Prop :=
  ∀ s : State, ∃ t, exec .cls s = .next t ∧ (∀ px py, t.display.cell px py = false) ∧ Frame [] [.display] s t

/-- DRW inverts exactly the cells the sprite covers, and `VF` is 1 iff a cell went from 1 to 0 (R211; decisions D4, D8,
D24, D25, D30). With no rows it reads neither `I` nor memory. -/
def Obligations.DrwInvertsTheCoveredCells : Prop :=
  ∀ (x y : Reg) (n : Nibble) (rows : List Byte) (s : State),
    s.vWritten[x.val] = true → s.vWritten[y.val] = true → SpriteBytes s n rows →
    ∃ t, exec (.drw x y n) s = .next t ∧
      (∀ px py, SpriteCovers s.qClip s.v[x.val].toNat s.v[y.val].toNat rows px py →
        t.display.cell px py = !s.display.cell px py) ∧
      (∀ px py, ¬ SpriteCovers s.qClip s.v[x.val].toNat s.v[y.val].toNat rows px py →
        t.display.cell px py = s.display.cell px py) ∧
      ((∃ px py, s.display.cell px py = true ∧ t.display.cell px py = false) → HoldsV t VF 1) ∧
      ((∀ px py, s.display.cell px py = true → t.display.cell px py = true) → HoldsV t VF 0) ∧
      Frame [VF] [.display] s t

/-- Drawing the same sprite twice restores the display, and the second draw's `VF` is 1 iff the first set some cell
(R212). The coordinates must not be in `VF`, which the first draw writes. -/
def Obligations.DrawingTwiceRestoresTheDisplay : Prop :=
  ∀ (x y : Reg) (n : Nibble) (rows : List Byte) (s : State), x ≠ VF → y ≠ VF →
    s.vWritten[x.val] = true → s.vWritten[y.val] = true → SpriteBytes s n rows →
    ∃ t u, exec (.drw x y n) s = .next t ∧ exec (.drw x y n) t = .next u ∧ u.display = s.display ∧
      (u.v[15] = 1 ↔ ∃ px py, s.display.cell px py = false ∧ t.display.cell px py = true)

/-- The faults of DRW in their order: `V[x]`, `V[y]`, then `I` when there is a row, then the first sprite byte that
cannot be read, also one of a row that would be clipped (R211, R303; decisions D13, D17, D25). -/
def Obligations.DrwReadFaults : Prop :=
  ∀ (x y : Reg) (n : Nibble) (s : State),
    (s.vWritten[x.val] = false → FaultsWith (exec (.drw x y n) s) s (.uninitializedRead (.v x))) ∧
    (s.vWritten[x.val] = true → s.vWritten[y.val] = false →
      FaultsWith (exec (.drw x y n) s) s (.uninitializedRead (.v y))) ∧
    (s.vWritten[x.val] = true → s.vWritten[y.val] = true → n ≠ 0 → s.indexWritten = false →
      FaultsWith (exec (.drw x y n) s) s (.uninitializedRead .index)) ∧
    (∀ r, s.vWritten[x.val] = true → s.vWritten[y.val] = true → s.indexWritten = true → r < n.toNat →
      (∀ q < r, Readable s (s.index.toNat + q)) → ¬ Readable s (s.index.toNat + r) →
      FaultsWith (exec (.drw x y n) s) s (readFault (s.index.toNat + r)))

/-! ### Keys and timers -/

/-- The key skips test this step's keys (R140, R230, R231); an unwritten register faults, and so does a key index above
15 (decisions D16, D17). -/
def Obligations.KeySkips : Prop :=
  ∀ (x : Reg) (s : State),
    (∀ k : Reg, s.vWritten[x.val] = true → s.v[x.val].toNat = k.val →
      (∃ t, exec (.skp x) s = .next t ∧ t.pc = (if s.keysCur[k.val] then s.pc + 2 else s.pc) ∧ Frame [] [.pc] s t) ∧
      (∃ t, exec (.sknp x) s = .next t ∧ t.pc = (if s.keysCur[k.val] then s.pc else s.pc + 2) ∧
        Frame [] [.pc] s t)) ∧
    (∀ i ∈ [Instr.skp x, .sknp x],
      (s.vWritten[x.val] = false → FaultsWith (exec i s) s (.uninitializedRead (.v x))) ∧
      (s.vWritten[x.val] = true → 15 < s.v[x.val].toNat →
        FaultsWith (exec i s) s (.keyIndexOutOfRange s.v[x.val])))

/-- FX07 reads `DT`; FX15 and FX18 write `DT` and `ST` from `V[x]`, which must be written (R232 to R234). -/
def Obligations.TimerRegisterMoves : Prop :=
  ∀ (x : Reg) (s : State),
    (∃ t, exec (.ldVxDt x) s = .next t ∧ HoldsV t x s.dt ∧ Frame [x] [] s t) ∧
    (s.vWritten[x.val] = true →
      (∃ t, exec (.ldDtVx x) s = .next t ∧ t.dt = s.v[x.val] ∧ Frame [] [.dt] s t) ∧
      (∃ t, exec (.ldStVx x) s = .next t ∧ t.st = s.v[x.val] ∧ Frame [] [.st] s t)) ∧
    (s.vWritten[x.val] = false →
      FaultsWith (exec (.ldDtVx x) s) s (.uninitializedRead (.v x)) ∧
      FaultsWith (exec (.ldStVx x) s) s (.uninitializedRead (.v x)))

/-- FX0A (R235, R236; D20): the lowest key that changed is recorded; a release ends the wait in the same step, a press
or no change enters the wait; `pc` is not moved. -/
def Obligations.KeyWaitRecordsTheFirstTransition : Prop :=
  ∀ (x : Reg) (s : State),
    (∀ k : Reg, FirstTransition s.keysPrev s.keysCur k →
      ∃ t, exec (.ldVxK x) s = .next t ∧ HoldsV t x (BitVec.ofNat 8 k.val) ∧
        t.mode = (if s.keysPrev[k.val] = true ∧ s.keysCur[k.val] = false then .ready else .waitingForKey) ∧
        Frame [x] [.mode] s t) ∧
    ((∀ k : Reg, s.keysCur[k.val] = s.keysPrev[k.val]) →
      ∃ t, exec (.ldVxK x) s = .next t ∧ t.mode = .waitingForKey ∧ Frame [] [.mode] s t)

/-! ### Index and memory -/

/-- FX1E adds `V[x]` to `I` mod 2^16; `VF` is 1 iff the sum passes 0xFFF (R260; decisions D26, D29). -/
def Obligations.AddToIndex : Prop :=
  ∀ (x : Reg) (s : State),
    (s.indexWritten = true → s.vWritten[x.val] = true → ∃ t, exec (.addI x) s = .next t ∧
      HoldsI t (BitVec.ofNat 16 ((s.index.toNat + s.v[x.val].toNat) % 65536)) ∧
      HoldsV t VF (if s.index.toNat + s.v[x.val].toNat > 0xFFF then 1 else 0) ∧ Frame [VF] [.index] s t) ∧
    (s.indexWritten = false → FaultsWith (exec (.addI x) s) s (.uninitializedRead .index)) ∧
    (s.indexWritten = true → s.vWritten[x.val] = false →
      FaultsWith (exec (.addI x) s) s (.uninitializedRead (.v x)))

/-- FX29 adds five times the low nibble of `V[x]` to `I` (R261; decision D10): it does not assign. -/
def Obligations.FontAddressIsAdded : Prop :=
  ∀ (x : Reg) (s : State),
    (s.vWritten[x.val] = true → s.indexWritten = true → ∃ t, exec (.ldF x) s = .next t ∧
      HoldsI t (BitVec.ofNat 16 ((s.index.toNat + 5 * (s.v[x.val].toNat % 16)) % 65536)) ∧ Frame [] [.index] s t) ∧
    (s.vWritten[x.val] = false → FaultsWith (exec (.ldF x) s) s (.uninitializedRead (.v x))) ∧
    (s.vWritten[x.val] = true → s.indexWritten = false → FaultsWith (exec (.ldF x) s) s (.uninitializedRead .index))

/-- FX33 stores the three decimal digits at `I`, `I + 1`, `I + 2` and leaves every other byte and `I` (R262; D27); its
faults come in the order `V[x]`, `I`, address, before any write (D13, D17). -/
def Obligations.BcdStore : Prop :=
  ∀ (x : Reg) (s : State), MemoryCanonical s →
    (s.vWritten[x.val] = true → s.indexWritten = true → s.index.toNat + 2 ≤ 0xFFF →
      ∃ t, exec (.ldB x) s = .next t ∧
        t.peek s.index.toNat = some (BitVec.ofNat 8 (s.v[x.val].toNat / 100)) ∧
        t.peek (s.index.toNat + 1) = some (BitVec.ofNat 8 (s.v[x.val].toNat % 100 / 10)) ∧
        t.peek (s.index.toNat + 2) = some (BitVec.ofNat 8 (s.v[x.val].toNat % 10)) ∧
        (∀ a, a < s.index.toNat ∨ s.index.toNat + 2 < a → t.peek a = s.peek a) ∧ Frame [] [.memory] s t) ∧
    (s.vWritten[x.val] = false → FaultsWith (exec (.ldB x) s) s (.uninitializedRead (.v x))) ∧
    (s.vWritten[x.val] = true → s.indexWritten = false → FaultsWith (exec (.ldB x) s) s (.uninitializedRead .index)) ∧
    (s.vWritten[x.val] = true → s.indexWritten = true → 0xFFF < s.index.toNat + 2 →
      FaultsWith (exec (.ldB x) s) s (.memOutOfRange (s.index.toNat + 2)))

/-- FX55 stores `V[0]` to `V[x]` from `I` on, leaves every other byte, and moves `I` past them under `Q_LOADSTORE`
(R263). -/
def Obligations.RegisterStore : Prop :=
  ∀ (x : Reg) (s : State), MemoryCanonical s → s.indexWritten = true → s.index.toNat + x.val ≤ 0xFFF →
    (∀ r : Reg, r ≤ x → s.vWritten[r.val] = true) →
    ∃ t, exec (.storeRegs x) s = .next t ∧
      (∀ r : Reg, r ≤ x → t.peek (s.index.toNat + r.val) = some s.v[r.val]) ∧
      (∀ a, a < s.index.toNat ∨ s.index.toNat + x.val < a → t.peek a = s.peek a) ∧
      HoldsI t (if s.qLoadStore then BitVec.ofNat 16 (s.index.toNat + x.val + 1) else s.index) ∧
      Frame [] [.memory, .index] s t

/-- FX65 loads `V[0]` to `V[x]` from `I` on and moves `I` past the bytes under `Q_LOADSTORE` (R264). -/
def Obligations.RegisterLoad : Prop :=
  ∀ (x : Reg) (s : State), s.indexWritten = true →
    (∀ r : Reg, r ≤ x → Readable s (s.index.toNat + r.val)) →
    ∃ t, exec (.loadRegs x) s = .next t ∧
      (∀ r : Reg, r ≤ x → t.vWritten[r.val] = true ∧ s.peek (s.index.toNat + r.val) = some t.v[r.val]) ∧
      HoldsI t (if s.qLoadStore then BitVec.ofNat 16 (s.index.toNat + x.val + 1) else s.index) ∧
      Frame (regsUpTo x) [.index] s t

/-- The faults of FX55 and FX65 in their orders: `I` first; then FX55 checks its highest address before it reads the
registers, and FX65 reads the lowest byte first (R263, R264, R303; decisions D13, D17). -/
def Obligations.RegisterStoreAndLoadFaults : Prop :=
  ∀ (x : Reg) (s : State),
    (∀ i ∈ [Instr.storeRegs x, .loadRegs x], s.indexWritten = false →
      FaultsWith (exec i s) s (.uninitializedRead .index)) ∧
    (s.indexWritten = true → 0xFFF < s.index.toNat + x.val →
      FaultsWith (exec (.storeRegs x) s) s (.memOutOfRange (s.index.toNat + x.val))) ∧
    (∀ r : Reg, s.indexWritten = true → s.index.toNat + x.val ≤ 0xFFF → r ≤ x →
      (∀ q : Reg, q < r → s.vWritten[q.val] = true) → s.vWritten[r.val] = false →
      FaultsWith (exec (.storeRegs x) s) s (.uninitializedRead (.v r))) ∧
    (∀ k, s.indexWritten = true → k ≤ x.val → (∀ j < k, Readable s (s.index.toNat + j)) →
      ¬ Readable s (s.index.toNat + k) →
      FaultsWith (exec (.loadRegs x) s) s (readFault (s.index.toNat + k)))
end

