-- ==== Sys2Proof/Laws/Cells.lean ====
section
/-! SUPPORT. Sparse data: reading after a write, and that writes keep the keys rising. -/

namespace Sys2Proof.Machine

variable {α : Type}

@[simp] theorem cellAt_nil (k : Nat) : cellAt ([] : List (Nat × α)) k = none := rfl

theorem cellAt_cons (c : Nat × α) (l : List (Nat × α)) (k : Nat) :
    cellAt (c :: l) k = if c.1 = k then some c.2 else cellAt l k := rfl

/-- The keys of the tail of a rising list are above its head's. -/
theorem rising_cons {c : Nat × α} {l : List (Nat × α)} :
    rising (c :: l) = true ↔ (∀ d ∈ l, c.1 < d.1) ∧ rising l = true := by
  induction l generalizing c with
  | nil => simp [rising]
  | cons d l ih =>
    simp only [rising, Bool.and_eq_true, decide_eq_true_eq, List.mem_cons, forall_eq_or_imp]
    constructor
    · rintro ⟨hcd, hl⟩
      have hd := (ih.mp hl).1
      exact ⟨⟨hcd, fun e he => lt_trans hcd (hd e he)⟩, hl⟩
    · rintro ⟨⟨hcd, -⟩, hl⟩
      exact ⟨hcd, hl⟩

/-- A key below all listed keys is not listed. -/
theorem cellAt_eq_none {l : List (Nat × α)} {k : Nat} (h : ∀ d ∈ l, k < d.1) : cellAt l k = none := by
  induction l with
  | nil => rfl
  | cons d l ih =>
    rw [cellAt_cons, if_neg (by have := h d (by simp); omega)]
    exact ih fun e he => h e (by simp [he])

/-- A listed value stands in the list. -/
theorem mem_of_cellAt {l : List (Nat × α)} {k : Nat} {a : α} (h : cellAt l k = some a) : (k, a) ∈ l := by
  induction l with
  | nil => cases h
  | cons d l ih =>
    rw [cellAt_cons] at h
    split at h
    · rename_i hk
      cases h
      simp [← hk]
    · exact List.mem_cons_of_mem _ (ih h)

/-- Reading after `putCell`. -/
theorem cellAt_putCell (l : List (Nat × α)) (k j : Nat) (a : α) :
    cellAt (putCell l k a) j = if k = j then some a else cellAt l j := by
  induction l with
  | nil => rfl
  | cons c l ih =>
    simp only [putCell]
    split
    · simp [cellAt_cons]
    · split
      · rename_i hk
        subst hk
        simp only [cellAt_cons]
        split <;> simp_all
      · rename_i hk
        simp only [cellAt_cons, ih]
        by_cases hc : c.1 = j
        · rw [if_pos hc, if_pos hc, if_neg (by omega)]
        · rw [if_neg hc, if_neg hc]

/-- Reading after `dropCell`, for rising keys. -/
theorem cellAt_dropCell {l : List (Nat × α)} (hl : rising l = true) (k j : Nat) :
    cellAt (dropCell l k) j = if k = j then none else cellAt l j := by
  induction l with
  | nil => simp [dropCell]
  | cons c l ih =>
    obtain ⟨hc, hl⟩ := rising_cons.mp hl
    simp only [dropCell]
    split
    · rename_i hk
      by_cases hj : k = j
      · rw [if_pos hj]
        exact cellAt_eq_none fun d hd => by have := hc d hd; omega
      · rw [if_neg hj, cellAt_cons, if_neg (by omega)]
    · simp only [cellAt_cons, ih hl]
      by_cases hj : c.1 = j
      · rw [if_pos hj, if_pos hj, if_neg (by omega)]
      · rw [if_neg hj, if_neg hj]

theorem mem_putCell {l : List (Nat × α)} {k : Nat} {a : α} {c : Nat × α} (h : c ∈ putCell l k a) :
    c = (k, a) ∨ c ∈ l := by
  induction l with
  | nil => simpa [putCell] using h
  | cons d l ih =>
    simp only [putCell] at h
    split at h
    · simpa using h
    · split at h
      · rcases List.mem_cons.mp h with h | h
        · exact .inl h
        · exact .inr (List.mem_cons_of_mem _ h)
      · rcases List.mem_cons.mp h with h | h
        · exact .inr (by simp [h])
        · exact (ih h).imp id (List.mem_cons_of_mem _)

theorem mem_dropCell {l : List (Nat × α)} {k : Nat} {c : Nat × α} (h : c ∈ dropCell l k) : c ∈ l := by
  induction l with
  | nil => exact h
  | cons d l ih =>
    simp only [dropCell] at h
    split at h
    · exact List.mem_cons_of_mem _ h
    · rcases List.mem_cons.mp h with h | h
      · simp [h]
      · exact List.mem_cons_of_mem _ (ih h)

theorem rising_putCell {l : List (Nat × α)} (hl : rising l = true) (k : Nat) (a : α) :
    rising (putCell l k a) = true := by
  induction l with
  | nil => rfl
  | cons c l ih =>
    obtain ⟨hc, hl'⟩ := rising_cons.mp hl
    simp only [putCell]
    split
    · rename_i hk
      refine rising_cons.mpr ⟨?_, hl⟩
      simp only [List.mem_cons, forall_eq_or_imp]
      exact ⟨hk, fun d hd => lt_trans hk (hc d hd)⟩
    · split
      · rename_i hk
        subst hk
        exact rising_cons.mpr ⟨hc, hl'⟩
      · refine rising_cons.mpr ⟨fun d hd => ?_, ih hl'⟩
        rcases mem_putCell hd with rfl | hd
        · simp only; omega
        · exact hc d hd

theorem rising_dropCell {l : List (Nat × α)} (hl : rising l = true) (k : Nat) : rising (dropCell l k) = true := by
  induction l with
  | nil => rfl
  | cons c l ih =>
    obtain ⟨hc, hl'⟩ := rising_cons.mp hl
    simp only [dropCell]
    split
    · exact hl'
    · exact rising_cons.mpr ⟨fun d hd => hc d (mem_dropCell hd), ih hl'⟩

end Sys2Proof.Machine
end

