-- ==== Sys2Proof/Laws/Decode.lean ====
section
/-! SUPPORT. The fields of the words the formats build (30_encoding.md R81, R84), and the two bytes of a word. -/

namespace Sys2Proof

/-! ### The bits of a word built from its fields -/

theorem wordXY_bit (f : Nibble) (x y : Reg) (n : Nibble) (i : Nat) :
    (wordXY f x y n).getLsbD i = if i < 4 then n.getLsbD i else if i < 8 then (regField y).getLsbD (i - 4)
      else if i < 12 then (regField x).getLsbD (i - 8) else f.getLsbD (i - 12) := by
  unfold wordXY
  rw [BitVec.getLsbD_append, BitVec.getLsbD_append, BitVec.getLsbD_append]
  by_cases h1 : i < 4
  · rw [if_pos (by omega), if_pos (by omega), if_pos h1, if_pos h1]
  · by_cases h2 : i < 8
    · rw [if_pos (by omega), if_pos (by omega), if_neg h1, if_neg h1, if_pos h2]
    · by_cases h3 : i < 12
      · rw [if_pos (by omega), if_neg (by omega), if_neg h1, if_neg h2, if_pos h3]
      · rw [if_neg (by omega), if_neg h1, if_neg h2, if_neg h3]

theorem wordX_bit (f : Nibble) (x : Reg) (nn : Byte) (i : Nat) :
    (wordX f x nn).getLsbD i = if i < 8 then nn.getLsbD i
      else if i < 12 then (regField x).getLsbD (i - 8) else f.getLsbD (i - 12) := by
  unfold wordX
  rw [BitVec.getLsbD_append, BitVec.getLsbD_append]
  by_cases h2 : i < 8
  · rw [if_pos (by omega), if_pos h2, if_pos h2]
  · by_cases h3 : i < 12
    · rw [if_pos (by omega), if_neg h2, if_neg h2, if_pos h3]
    · rw [if_neg (by omega), if_neg h2, if_neg h3]

theorem wordNNN_bit (f : Nibble) (nnn : Addr) (i : Nat) :
    (wordNNN f nnn).getLsbD i = if i < 12 then nnn.getLsbD i else f.getLsbD (i - 12) := by
  unfold wordNNN
  rw [BitVec.getLsbD_append]

/-! ### The fields read back -/

theorem regField_inj {x y : Reg} (h : regField x = regField y) : x = y := congrArg BitVec.toFin h

@[simp] theorem opFamily_wordXY (f : Nibble) (x y : Reg) (n : Nibble) : opFamily (wordXY f x y n) = f := by
  apply BitVec.eq_of_getLsbD_eq
  intro i hi
  rw [opFamily, BitVec.getLsbD_extractLsb', wordXY_bit]
  interval_cases i <;> simp

@[simp] theorem opFamily_wordX (f : Nibble) (x : Reg) (nn : Byte) : opFamily (wordX f x nn) = f := by
  apply BitVec.eq_of_getLsbD_eq
  intro i hi
  rw [opFamily, BitVec.getLsbD_extractLsb', wordX_bit]
  interval_cases i <;> simp

@[simp] theorem opFamily_wordNNN (f : Nibble) (nnn : Addr) : opFamily (wordNNN f nnn) = f := by
  apply BitVec.eq_of_getLsbD_eq
  intro i hi
  rw [opFamily, BitVec.getLsbD_extractLsb', wordNNN_bit]
  interval_cases i <;> simp

@[simp] theorem opX_wordXY (f : Nibble) (x y : Reg) (n : Nibble) : opX (wordXY f x y n) = x := by
  apply regField_inj
  apply BitVec.eq_of_getLsbD_eq
  intro i hi
  change ((wordXY f x y n).extractLsb' 8 4).getLsbD i = _
  rw [BitVec.getLsbD_extractLsb', wordXY_bit]
  interval_cases i <;> simp

@[simp] theorem opX_wordX (f : Nibble) (x : Reg) (nn : Byte) : opX (wordX f x nn) = x := by
  apply regField_inj
  apply BitVec.eq_of_getLsbD_eq
  intro i hi
  change ((wordX f x nn).extractLsb' 8 4).getLsbD i = _
  rw [BitVec.getLsbD_extractLsb', wordX_bit]
  interval_cases i <;> simp

@[simp] theorem opY_wordXY (f : Nibble) (x y : Reg) (n : Nibble) : opY (wordXY f x y n) = y := by
  apply regField_inj
  apply BitVec.eq_of_getLsbD_eq
  intro i hi
  change ((wordXY f x y n).extractLsb' 4 4).getLsbD i = _
  rw [BitVec.getLsbD_extractLsb', wordXY_bit]
  interval_cases i <;> simp

@[simp] theorem opN_wordXY (f : Nibble) (x y : Reg) (n : Nibble) : opN (wordXY f x y n) = n := by
  apply BitVec.eq_of_getLsbD_eq
  intro i hi
  rw [opN, BitVec.getLsbD_extractLsb', wordXY_bit]
  interval_cases i <;> simp

@[simp] theorem opNN_wordX (f : Nibble) (x : Reg) (nn : Byte) : opNN (wordX f x nn) = nn := by
  apply BitVec.eq_of_getLsbD_eq
  intro i hi
  rw [opNN, BitVec.getLsbD_extractLsb', wordX_bit]
  interval_cases i <;> simp

@[simp] theorem opNNN_wordNNN (f : Nibble) (nnn : Addr) : opNNN (wordNNN f nnn) = nnn := by
  apply BitVec.eq_of_getLsbD_eq
  intro i hi
  rw [opNNN, BitVec.getLsbD_extractLsb', wordNNN_bit]
  interval_cases i <;> simp

/-- The register field of `NNN` words is the top nibble of the address (30_encoding.md R82). -/
theorem opX_wordNNN (f : Nibble) (nnn : Addr) : (opX (wordNNN f nnn)).val = nnn.toNat / 256 := by
  have h : (wordNNN f nnn).extractLsb' 8 4 = nnn.extractLsb' 8 4 := by
    apply BitVec.eq_of_getLsbD_eq
    intro i hi
    rw [BitVec.getLsbD_extractLsb', BitVec.getLsbD_extractLsb', wordNNN_bit]
    interval_cases i <;> simp
  change ((wordNNN f nnn).extractLsb' 8 4).toNat = _
  rw [h, BitVec.extractLsb'_toNat, Nat.shiftRight_eq_div_pow]
  have := nnn.isLt
  omega

/-! ### The level-2 keys (30_encoding.md R85) -/

theorem wordXY_key (f : Nibble) (x y : Reg) (n : Nibble) : wordXY f x y n &&& 0xF00F#16 = wordXY f 0 0 n := by
  apply BitVec.eq_of_getLsbD_eq
  intro i hi
  rw [BitVec.getLsbD_and, wordXY_bit, wordXY_bit]
  interval_cases i <;> simp [regField]

theorem wordX_key (f : Nibble) (x : Reg) (nn : Byte) : wordX f x nn &&& 0xF0FF#16 = wordX f 0 nn := by
  apply BitVec.eq_of_getLsbD_eq
  intro i hi
  rw [BitVec.getLsbD_and, wordX_bit, wordX_bit]
  interval_cases i <;> simp [regField]

theorem wordXY_family (f : Nibble) (x y : Reg) (n : Nibble) : wordXY f x y n &&& 0xF000#16 = wordNNN f 0 := by
  apply BitVec.eq_of_getLsbD_eq
  intro i hi
  rw [BitVec.getLsbD_and, wordXY_bit, wordNNN_bit]
  interval_cases i <;> simp

theorem wordX_family (f : Nibble) (x : Reg) (nn : Byte) : wordX f x nn &&& 0xF000#16 = wordNNN f 0 := by
  apply BitVec.eq_of_getLsbD_eq
  intro i hi
  rw [BitVec.getLsbD_and, wordX_bit, wordNNN_bit]
  interval_cases i <;> simp

theorem wordNNN_family (f : Nibble) (nnn : Addr) : wordNNN f nnn &&& 0xF000#16 = wordNNN f 0 := by
  apply BitVec.eq_of_getLsbD_eq
  intro i hi
  rw [BitVec.getLsbD_and, wordNNN_bit, wordNNN_bit]
  interval_cases i <;> simp

/-! ### A word from its level-2 key and its fields -/

/-- The bits of the register fields of an opcode. -/
theorem regField_opX_bit (op : Word) (j : Nat) : (regField (opX op)).getLsbD j = (op.extractLsb' 8 4).getLsbD j := rfl

theorem regField_opY_bit (op : Word) (j : Nat) : (regField (opY op)).getLsbD j = (op.extractLsb' 4 4).getLsbD j := rfl

theorem eq_wordXY_of_key {op : Word} {f n : Nibble} (h : op &&& 0xF00F#16 = wordXY f 0 0 n) :
    op = wordXY f (opX op) (opY op) n := by
  apply BitVec.eq_of_getLsbD_eq
  intro i hi
  have hb := congrArg (fun w => BitVec.getLsbD w i) h
  simp only [BitVec.getLsbD_and, wordXY_bit] at hb
  rw [wordXY_bit, regField_opX_bit, regField_opY_bit, BitVec.getLsbD_extractLsb', BitVec.getLsbD_extractLsb']
  interval_cases i <;> simp at hb ⊢ <;> exact hb

theorem eq_wordX_of_key {op : Word} {f : Nibble} {nn : Byte} (h : op &&& 0xF0FF#16 = wordX f 0 nn) :
    op = wordX f (opX op) nn := by
  apply BitVec.eq_of_getLsbD_eq
  intro i hi
  have hb := congrArg (fun w => BitVec.getLsbD w i) h
  simp only [BitVec.getLsbD_and, wordX_bit] at hb
  rw [wordX_bit, regField_opX_bit, BitVec.getLsbD_extractLsb']
  interval_cases i <;> simp at hb ⊢ <;> exact hb

/-- A word of family `f`, in each of the three formats. -/
theorem eq_words_of_family {op : Word} {f : Nibble} (h : op &&& 0xF000#16 = wordNNN f 0) :
    op = wordNNN f (opNNN op) ∧ op = wordX f (opX op) (opNN op) ∧ op = wordXY f (opX op) (opY op) (opN op) := by
  have hb := fun i => congrArg (fun w => BitVec.getLsbD w i) h
  simp only [BitVec.getLsbD_and, wordNNN_bit] at hb
  refine ⟨?_, ?_, ?_⟩
  all_goals
    apply BitVec.eq_of_getLsbD_eq
    intro i hi
    have hb := hb i
    simp only [wordNNN_bit, wordX_bit, wordXY_bit, regField_opX_bit, regField_opY_bit, opNNN, opNN, opN,
      BitVec.getLsbD_extractLsb']
    interval_cases i <;> simp at hb ⊢ <;> exact hb

/-- A key holds its word's family. -/
theorem opFamily_key (op : Word) : opFamily (op &&& familyMask (opFamily op)) = opFamily op := by
  have h : ∀ f : Nibble, f.toNat < 16 → opFamily (familyMask f) = 0xF := by decide
  have h := h (opFamily op) (opFamily op).isLt
  apply BitVec.eq_of_getLsbD_eq
  intro i hi
  have hb := congrArg (fun w => BitVec.getLsbD w i) h
  simp only [opFamily, BitVec.getLsbD_extractLsb', BitVec.getLsbD_and] at hb ⊢
  interval_cases i <;> simp at hb ⊢ <;> simp_all

/-- Decoding a word whose family, key and arm are known. -/
theorem decodeWord_of_key {op m k : Word} {i : Instr} (h1 : familyMask (opFamily op) = m) (h2 : op &&& m = k)
    (h3 : instrOfKey k op = some i) : decodeWord op = some i := by
  unfold decodeWord; rw [h1, h2, h3]

/-! ### The two bytes of a word (20_memory.md R64) -/

theorem composeOp_bit (hi lo : Byte) (i : Nat) :
    (composeOp hi lo).getLsbD i = if i < 8 then lo.getLsbD i else hi.getLsbD (i - 8) := by
  rw [composeOp, BitVec.getLsbD_append]

@[simp] theorem composeOp_bytes (op : Word) : composeOp (opHi op) (opLo op) = op := by
  apply BitVec.eq_of_getLsbD_eq
  intro i hi
  rw [composeOp_bit, opHi, opLo, BitVec.getLsbD_extractLsb', BitVec.getLsbD_extractLsb']
  interval_cases i <;> simp

@[simp] theorem opHi_composeOp (hi lo : Byte) : opHi (composeOp hi lo) = hi := by
  apply BitVec.eq_of_getLsbD_eq
  intro i h
  rw [opHi, BitVec.getLsbD_extractLsb', composeOp_bit]
  interval_cases i <;> simp

@[simp] theorem opLo_composeOp (hi lo : Byte) : opLo (composeOp hi lo) = lo := by
  apply BitVec.eq_of_getLsbD_eq
  intro i h
  rw [opLo, BitVec.getLsbD_extractLsb', composeOp_bit]
  interval_cases i <;> simp

/-- What the decoder does with two bytes or more. -/
theorem decode_cons_cons (hi lo : Byte) (rest : List Byte) :
    decode (hi :: lo :: rest) = match decodeWord (composeOp hi lo) with
      | some i => .ok (i, rest)
      | none => .error (.unimplemented (composeOp hi lo)) := rfl

end Sys2Proof
end

