-- ==== Sys2Proof/Laws/State.lean ====
section
/-! SUPPORT. One lemma per field per write of Machine/Ops.lean. -/

namespace Sys2Proof.Machine.State

variable (s : State)

/-! ### writeV -/

@[simp] theorem writeV_params (x : Reg) (b : Byte) : (s.writeV x b).params = s.params := rfl
@[simp] theorem writeV_v (x : Reg) (b : Byte) : (s.writeV x b).v = s.v.set x.val b := rfl
@[simp] theorem writeV_vWritten (x : Reg) (b : Byte) : (s.writeV x b).vWritten = s.vWritten.set x.val true := rfl
@[simp] theorem writeV_index (x : Reg) (b : Byte) : (s.writeV x b).index = s.index := rfl
@[simp] theorem writeV_indexWritten (x : Reg) (b : Byte) : (s.writeV x b).indexWritten = s.indexWritten := rfl
@[simp] theorem writeV_pc (x : Reg) (b : Byte) : (s.writeV x b).pc = s.pc := rfl
@[simp] theorem writeV_stack (x : Reg) (b : Byte) : (s.writeV x b).stack = s.stack := rfl
@[simp] theorem writeV_sp (x : Reg) (b : Byte) : (s.writeV x b).sp = s.sp := rfl
@[simp] theorem writeV_dt (x : Reg) (b : Byte) : (s.writeV x b).dt = s.dt := rfl
@[simp] theorem writeV_st (x : Reg) (b : Byte) : (s.writeV x b).st = s.st := rfl
@[simp] theorem writeV_display (x : Reg) (b : Byte) : (s.writeV x b).display = s.display := rfl
@[simp] theorem writeV_keysCur (x : Reg) (b : Byte) : (s.writeV x b).keysCur = s.keysCur := rfl
@[simp] theorem writeV_keysPrev (x : Reg) (b : Byte) : (s.writeV x b).keysPrev = s.keysPrev := rfl
@[simp] theorem writeV_op (x : Reg) (b : Byte) : (s.writeV x b).op = s.op := rfl
@[simp] theorem writeV_mode (x : Reg) (b : Byte) : (s.writeV x b).mode = s.mode := rfl
@[simp] theorem writeV_fault (x : Reg) (b : Byte) : (s.writeV x b).fault = s.fault := rfl
@[simp] theorem writeV_mem (x : Reg) (b : Byte) : (s.writeV x b).mem = s.mem := rfl
@[simp] theorem writeV_inputs (x : Reg) (b : Byte) : (s.writeV x b).inputs = s.inputs := rfl
@[simp] theorem writeV_inputNo (x : Reg) (b : Byte) : (s.writeV x b).inputNo = s.inputNo := rfl

/-! ### writeI -/

@[simp] theorem writeI_params (w : Word) : (s.writeI w).params = s.params := rfl
@[simp] theorem writeI_v (w : Word) : (s.writeI w).v = s.v := rfl
@[simp] theorem writeI_vWritten (w : Word) : (s.writeI w).vWritten = s.vWritten := rfl
@[simp] theorem writeI_index (w : Word) : (s.writeI w).index = w := rfl
@[simp] theorem writeI_indexWritten (w : Word) : (s.writeI w).indexWritten = true := rfl
@[simp] theorem writeI_pc (w : Word) : (s.writeI w).pc = s.pc := rfl
@[simp] theorem writeI_stack (w : Word) : (s.writeI w).stack = s.stack := rfl
@[simp] theorem writeI_sp (w : Word) : (s.writeI w).sp = s.sp := rfl
@[simp] theorem writeI_dt (w : Word) : (s.writeI w).dt = s.dt := rfl
@[simp] theorem writeI_st (w : Word) : (s.writeI w).st = s.st := rfl
@[simp] theorem writeI_display (w : Word) : (s.writeI w).display = s.display := rfl
@[simp] theorem writeI_keysCur (w : Word) : (s.writeI w).keysCur = s.keysCur := rfl
@[simp] theorem writeI_keysPrev (w : Word) : (s.writeI w).keysPrev = s.keysPrev := rfl
@[simp] theorem writeI_op (w : Word) : (s.writeI w).op = s.op := rfl
@[simp] theorem writeI_mode (w : Word) : (s.writeI w).mode = s.mode := rfl
@[simp] theorem writeI_fault (w : Word) : (s.writeI w).fault = s.fault := rfl
@[simp] theorem writeI_mem (w : Word) : (s.writeI w).mem = s.mem := rfl
@[simp] theorem writeI_inputs (w : Word) : (s.writeI w).inputs = s.inputs := rfl
@[simp] theorem writeI_inputNo (w : Word) : (s.writeI w).inputNo = s.inputNo := rfl

/-! ### setPc -/

@[simp] theorem setPc_params (w : Word) : (s.setPc w).params = s.params := rfl
@[simp] theorem setPc_v (w : Word) : (s.setPc w).v = s.v := rfl
@[simp] theorem setPc_vWritten (w : Word) : (s.setPc w).vWritten = s.vWritten := rfl
@[simp] theorem setPc_index (w : Word) : (s.setPc w).index = s.index := rfl
@[simp] theorem setPc_indexWritten (w : Word) : (s.setPc w).indexWritten = s.indexWritten := rfl
@[simp] theorem setPc_pc (w : Word) : (s.setPc w).pc = w := rfl
@[simp] theorem setPc_stack (w : Word) : (s.setPc w).stack = s.stack := rfl
@[simp] theorem setPc_sp (w : Word) : (s.setPc w).sp = s.sp := rfl
@[simp] theorem setPc_dt (w : Word) : (s.setPc w).dt = s.dt := rfl
@[simp] theorem setPc_st (w : Word) : (s.setPc w).st = s.st := rfl
@[simp] theorem setPc_display (w : Word) : (s.setPc w).display = s.display := rfl
@[simp] theorem setPc_keysCur (w : Word) : (s.setPc w).keysCur = s.keysCur := rfl
@[simp] theorem setPc_keysPrev (w : Word) : (s.setPc w).keysPrev = s.keysPrev := rfl
@[simp] theorem setPc_op (w : Word) : (s.setPc w).op = s.op := rfl
@[simp] theorem setPc_mode (w : Word) : (s.setPc w).mode = s.mode := rfl
@[simp] theorem setPc_fault (w : Word) : (s.setPc w).fault = s.fault := rfl
@[simp] theorem setPc_mem (w : Word) : (s.setPc w).mem = s.mem := rfl
@[simp] theorem setPc_inputs (w : Word) : (s.setPc w).inputs = s.inputs := rfl
@[simp] theorem setPc_inputNo (w : Word) : (s.setPc w).inputNo = s.inputNo := rfl

/-! ### setSp -/

@[simp] theorem setSp_params (b : Byte) : (s.setSp b).params = s.params := rfl
@[simp] theorem setSp_v (b : Byte) : (s.setSp b).v = s.v := rfl
@[simp] theorem setSp_vWritten (b : Byte) : (s.setSp b).vWritten = s.vWritten := rfl
@[simp] theorem setSp_index (b : Byte) : (s.setSp b).index = s.index := rfl
@[simp] theorem setSp_indexWritten (b : Byte) : (s.setSp b).indexWritten = s.indexWritten := rfl
@[simp] theorem setSp_pc (b : Byte) : (s.setSp b).pc = s.pc := rfl
@[simp] theorem setSp_stack (b : Byte) : (s.setSp b).stack = s.stack := rfl
@[simp] theorem setSp_sp (b : Byte) : (s.setSp b).sp = b := rfl
@[simp] theorem setSp_dt (b : Byte) : (s.setSp b).dt = s.dt := rfl
@[simp] theorem setSp_st (b : Byte) : (s.setSp b).st = s.st := rfl
@[simp] theorem setSp_display (b : Byte) : (s.setSp b).display = s.display := rfl
@[simp] theorem setSp_keysCur (b : Byte) : (s.setSp b).keysCur = s.keysCur := rfl
@[simp] theorem setSp_keysPrev (b : Byte) : (s.setSp b).keysPrev = s.keysPrev := rfl
@[simp] theorem setSp_op (b : Byte) : (s.setSp b).op = s.op := rfl
@[simp] theorem setSp_mode (b : Byte) : (s.setSp b).mode = s.mode := rfl
@[simp] theorem setSp_fault (b : Byte) : (s.setSp b).fault = s.fault := rfl
@[simp] theorem setSp_mem (b : Byte) : (s.setSp b).mem = s.mem := rfl
@[simp] theorem setSp_inputs (b : Byte) : (s.setSp b).inputs = s.inputs := rfl
@[simp] theorem setSp_inputNo (b : Byte) : (s.setSp b).inputNo = s.inputNo := rfl

/-! ### setStackEntry -/

@[simp] theorem setStackEntry_params (k : Nat) (w : Word) : (s.setStackEntry k w).params = s.params := rfl
@[simp] theorem setStackEntry_v (k : Nat) (w : Word) : (s.setStackEntry k w).v = s.v := rfl
@[simp] theorem setStackEntry_vWritten (k : Nat) (w : Word) : (s.setStackEntry k w).vWritten = s.vWritten := rfl
@[simp] theorem setStackEntry_index (k : Nat) (w : Word) : (s.setStackEntry k w).index = s.index := rfl
@[simp] theorem setStackEntry_indexWritten (k : Nat) (w : Word) : (s.setStackEntry k w).indexWritten = s.indexWritten := rfl
@[simp] theorem setStackEntry_pc (k : Nat) (w : Word) : (s.setStackEntry k w).pc = s.pc := rfl
@[simp] theorem setStackEntry_stack (k : Nat) (w : Word) : (s.setStackEntry k w).stack = putCell s.stack k w := rfl
@[simp] theorem setStackEntry_sp (k : Nat) (w : Word) : (s.setStackEntry k w).sp = s.sp := rfl
@[simp] theorem setStackEntry_dt (k : Nat) (w : Word) : (s.setStackEntry k w).dt = s.dt := rfl
@[simp] theorem setStackEntry_st (k : Nat) (w : Word) : (s.setStackEntry k w).st = s.st := rfl
@[simp] theorem setStackEntry_display (k : Nat) (w : Word) : (s.setStackEntry k w).display = s.display := rfl
@[simp] theorem setStackEntry_keysCur (k : Nat) (w : Word) : (s.setStackEntry k w).keysCur = s.keysCur := rfl
@[simp] theorem setStackEntry_keysPrev (k : Nat) (w : Word) : (s.setStackEntry k w).keysPrev = s.keysPrev := rfl
@[simp] theorem setStackEntry_op (k : Nat) (w : Word) : (s.setStackEntry k w).op = s.op := rfl
@[simp] theorem setStackEntry_mode (k : Nat) (w : Word) : (s.setStackEntry k w).mode = s.mode := rfl
@[simp] theorem setStackEntry_fault (k : Nat) (w : Word) : (s.setStackEntry k w).fault = s.fault := rfl
@[simp] theorem setStackEntry_mem (k : Nat) (w : Word) : (s.setStackEntry k w).mem = s.mem := rfl
@[simp] theorem setStackEntry_inputs (k : Nat) (w : Word) : (s.setStackEntry k w).inputs = s.inputs := rfl
@[simp] theorem setStackEntry_inputNo (k : Nat) (w : Word) : (s.setStackEntry k w).inputNo = s.inputNo := rfl

/-! ### setDt -/

@[simp] theorem setDt_params (b : Byte) : (s.setDt b).params = s.params := rfl
@[simp] theorem setDt_v (b : Byte) : (s.setDt b).v = s.v := rfl
@[simp] theorem setDt_vWritten (b : Byte) : (s.setDt b).vWritten = s.vWritten := rfl
@[simp] theorem setDt_index (b : Byte) : (s.setDt b).index = s.index := rfl
@[simp] theorem setDt_indexWritten (b : Byte) : (s.setDt b).indexWritten = s.indexWritten := rfl
@[simp] theorem setDt_pc (b : Byte) : (s.setDt b).pc = s.pc := rfl
@[simp] theorem setDt_stack (b : Byte) : (s.setDt b).stack = s.stack := rfl
@[simp] theorem setDt_sp (b : Byte) : (s.setDt b).sp = s.sp := rfl
@[simp] theorem setDt_dt (b : Byte) : (s.setDt b).dt = b := rfl
@[simp] theorem setDt_st (b : Byte) : (s.setDt b).st = s.st := rfl
@[simp] theorem setDt_display (b : Byte) : (s.setDt b).display = s.display := rfl
@[simp] theorem setDt_keysCur (b : Byte) : (s.setDt b).keysCur = s.keysCur := rfl
@[simp] theorem setDt_keysPrev (b : Byte) : (s.setDt b).keysPrev = s.keysPrev := rfl
@[simp] theorem setDt_op (b : Byte) : (s.setDt b).op = s.op := rfl
@[simp] theorem setDt_mode (b : Byte) : (s.setDt b).mode = s.mode := rfl
@[simp] theorem setDt_fault (b : Byte) : (s.setDt b).fault = s.fault := rfl
@[simp] theorem setDt_mem (b : Byte) : (s.setDt b).mem = s.mem := rfl
@[simp] theorem setDt_inputs (b : Byte) : (s.setDt b).inputs = s.inputs := rfl
@[simp] theorem setDt_inputNo (b : Byte) : (s.setDt b).inputNo = s.inputNo := rfl

/-! ### setSt -/

@[simp] theorem setSt_params (b : Byte) : (s.setSt b).params = s.params := rfl
@[simp] theorem setSt_v (b : Byte) : (s.setSt b).v = s.v := rfl
@[simp] theorem setSt_vWritten (b : Byte) : (s.setSt b).vWritten = s.vWritten := rfl
@[simp] theorem setSt_index (b : Byte) : (s.setSt b).index = s.index := rfl
@[simp] theorem setSt_indexWritten (b : Byte) : (s.setSt b).indexWritten = s.indexWritten := rfl
@[simp] theorem setSt_pc (b : Byte) : (s.setSt b).pc = s.pc := rfl
@[simp] theorem setSt_stack (b : Byte) : (s.setSt b).stack = s.stack := rfl
@[simp] theorem setSt_sp (b : Byte) : (s.setSt b).sp = s.sp := rfl
@[simp] theorem setSt_dt (b : Byte) : (s.setSt b).dt = s.dt := rfl
@[simp] theorem setSt_st (b : Byte) : (s.setSt b).st = b := rfl
@[simp] theorem setSt_display (b : Byte) : (s.setSt b).display = s.display := rfl
@[simp] theorem setSt_keysCur (b : Byte) : (s.setSt b).keysCur = s.keysCur := rfl
@[simp] theorem setSt_keysPrev (b : Byte) : (s.setSt b).keysPrev = s.keysPrev := rfl
@[simp] theorem setSt_op (b : Byte) : (s.setSt b).op = s.op := rfl
@[simp] theorem setSt_mode (b : Byte) : (s.setSt b).mode = s.mode := rfl
@[simp] theorem setSt_fault (b : Byte) : (s.setSt b).fault = s.fault := rfl
@[simp] theorem setSt_mem (b : Byte) : (s.setSt b).mem = s.mem := rfl
@[simp] theorem setSt_inputs (b : Byte) : (s.setSt b).inputs = s.inputs := rfl
@[simp] theorem setSt_inputNo (b : Byte) : (s.setSt b).inputNo = s.inputNo := rfl

/-! ### setDisplay -/

@[simp] theorem setDisplay_params (d : Display) : (s.setDisplay d).params = s.params := rfl
@[simp] theorem setDisplay_v (d : Display) : (s.setDisplay d).v = s.v := rfl
@[simp] theorem setDisplay_vWritten (d : Display) : (s.setDisplay d).vWritten = s.vWritten := rfl
@[simp] theorem setDisplay_index (d : Display) : (s.setDisplay d).index = s.index := rfl
@[simp] theorem setDisplay_indexWritten (d : Display) : (s.setDisplay d).indexWritten = s.indexWritten := rfl
@[simp] theorem setDisplay_pc (d : Display) : (s.setDisplay d).pc = s.pc := rfl
@[simp] theorem setDisplay_stack (d : Display) : (s.setDisplay d).stack = s.stack := rfl
@[simp] theorem setDisplay_sp (d : Display) : (s.setDisplay d).sp = s.sp := rfl
@[simp] theorem setDisplay_dt (d : Display) : (s.setDisplay d).dt = s.dt := rfl
@[simp] theorem setDisplay_st (d : Display) : (s.setDisplay d).st = s.st := rfl
@[simp] theorem setDisplay_display (d : Display) : (s.setDisplay d).display = d := rfl
@[simp] theorem setDisplay_keysCur (d : Display) : (s.setDisplay d).keysCur = s.keysCur := rfl
@[simp] theorem setDisplay_keysPrev (d : Display) : (s.setDisplay d).keysPrev = s.keysPrev := rfl
@[simp] theorem setDisplay_op (d : Display) : (s.setDisplay d).op = s.op := rfl
@[simp] theorem setDisplay_mode (d : Display) : (s.setDisplay d).mode = s.mode := rfl
@[simp] theorem setDisplay_fault (d : Display) : (s.setDisplay d).fault = s.fault := rfl
@[simp] theorem setDisplay_mem (d : Display) : (s.setDisplay d).mem = s.mem := rfl
@[simp] theorem setDisplay_inputs (d : Display) : (s.setDisplay d).inputs = s.inputs := rfl
@[simp] theorem setDisplay_inputNo (d : Display) : (s.setDisplay d).inputNo = s.inputNo := rfl

/-! ### setMode -/

@[simp] theorem setMode_params (m : Mode) : (s.setMode m).params = s.params := rfl
@[simp] theorem setMode_v (m : Mode) : (s.setMode m).v = s.v := rfl
@[simp] theorem setMode_vWritten (m : Mode) : (s.setMode m).vWritten = s.vWritten := rfl
@[simp] theorem setMode_index (m : Mode) : (s.setMode m).index = s.index := rfl
@[simp] theorem setMode_indexWritten (m : Mode) : (s.setMode m).indexWritten = s.indexWritten := rfl
@[simp] theorem setMode_pc (m : Mode) : (s.setMode m).pc = s.pc := rfl
@[simp] theorem setMode_stack (m : Mode) : (s.setMode m).stack = s.stack := rfl
@[simp] theorem setMode_sp (m : Mode) : (s.setMode m).sp = s.sp := rfl
@[simp] theorem setMode_dt (m : Mode) : (s.setMode m).dt = s.dt := rfl
@[simp] theorem setMode_st (m : Mode) : (s.setMode m).st = s.st := rfl
@[simp] theorem setMode_display (m : Mode) : (s.setMode m).display = s.display := rfl
@[simp] theorem setMode_keysCur (m : Mode) : (s.setMode m).keysCur = s.keysCur := rfl
@[simp] theorem setMode_keysPrev (m : Mode) : (s.setMode m).keysPrev = s.keysPrev := rfl
@[simp] theorem setMode_op (m : Mode) : (s.setMode m).op = s.op := rfl
@[simp] theorem setMode_mode (m : Mode) : (s.setMode m).mode = m := rfl
@[simp] theorem setMode_fault (m : Mode) : (s.setMode m).fault = s.fault := rfl
@[simp] theorem setMode_mem (m : Mode) : (s.setMode m).mem = s.mem := rfl
@[simp] theorem setMode_inputs (m : Mode) : (s.setMode m).inputs = s.inputs := rfl
@[simp] theorem setMode_inputNo (m : Mode) : (s.setMode m).inputNo = s.inputNo := rfl

/-! ### setMem -/

@[simp] theorem setMem_params (m : Memory) : (s.setMem m).params = s.params := rfl
@[simp] theorem setMem_v (m : Memory) : (s.setMem m).v = s.v := rfl
@[simp] theorem setMem_vWritten (m : Memory) : (s.setMem m).vWritten = s.vWritten := rfl
@[simp] theorem setMem_index (m : Memory) : (s.setMem m).index = s.index := rfl
@[simp] theorem setMem_indexWritten (m : Memory) : (s.setMem m).indexWritten = s.indexWritten := rfl
@[simp] theorem setMem_pc (m : Memory) : (s.setMem m).pc = s.pc := rfl
@[simp] theorem setMem_stack (m : Memory) : (s.setMem m).stack = s.stack := rfl
@[simp] theorem setMem_sp (m : Memory) : (s.setMem m).sp = s.sp := rfl
@[simp] theorem setMem_dt (m : Memory) : (s.setMem m).dt = s.dt := rfl
@[simp] theorem setMem_st (m : Memory) : (s.setMem m).st = s.st := rfl
@[simp] theorem setMem_display (m : Memory) : (s.setMem m).display = s.display := rfl
@[simp] theorem setMem_keysCur (m : Memory) : (s.setMem m).keysCur = s.keysCur := rfl
@[simp] theorem setMem_keysPrev (m : Memory) : (s.setMem m).keysPrev = s.keysPrev := rfl
@[simp] theorem setMem_op (m : Memory) : (s.setMem m).op = s.op := rfl
@[simp] theorem setMem_mode (m : Memory) : (s.setMem m).mode = s.mode := rfl
@[simp] theorem setMem_fault (m : Memory) : (s.setMem m).fault = s.fault := rfl
@[simp] theorem setMem_mem (m : Memory) : (s.setMem m).mem = m := rfl
@[simp] theorem setMem_inputs (m : Memory) : (s.setMem m).inputs = s.inputs := rfl
@[simp] theorem setMem_inputNo (m : Memory) : (s.setMem m).inputNo = s.inputNo := rfl

/-! ### setKeys -/

@[simp] theorem setKeys_params (prev cur : Vector Bool 16) : (s.setKeys prev cur).params = s.params := rfl
@[simp] theorem setKeys_v (prev cur : Vector Bool 16) : (s.setKeys prev cur).v = s.v := rfl
@[simp] theorem setKeys_vWritten (prev cur : Vector Bool 16) : (s.setKeys prev cur).vWritten = s.vWritten := rfl
@[simp] theorem setKeys_index (prev cur : Vector Bool 16) : (s.setKeys prev cur).index = s.index := rfl
@[simp] theorem setKeys_indexWritten (prev cur : Vector Bool 16) : (s.setKeys prev cur).indexWritten = s.indexWritten := rfl
@[simp] theorem setKeys_pc (prev cur : Vector Bool 16) : (s.setKeys prev cur).pc = s.pc := rfl
@[simp] theorem setKeys_stack (prev cur : Vector Bool 16) : (s.setKeys prev cur).stack = s.stack := rfl
@[simp] theorem setKeys_sp (prev cur : Vector Bool 16) : (s.setKeys prev cur).sp = s.sp := rfl
@[simp] theorem setKeys_dt (prev cur : Vector Bool 16) : (s.setKeys prev cur).dt = s.dt := rfl
@[simp] theorem setKeys_st (prev cur : Vector Bool 16) : (s.setKeys prev cur).st = s.st := rfl
@[simp] theorem setKeys_display (prev cur : Vector Bool 16) : (s.setKeys prev cur).display = s.display := rfl
@[simp] theorem setKeys_keysCur (prev cur : Vector Bool 16) : (s.setKeys prev cur).keysCur = cur := rfl
@[simp] theorem setKeys_keysPrev (prev cur : Vector Bool 16) : (s.setKeys prev cur).keysPrev = prev := rfl
@[simp] theorem setKeys_op (prev cur : Vector Bool 16) : (s.setKeys prev cur).op = s.op := rfl
@[simp] theorem setKeys_mode (prev cur : Vector Bool 16) : (s.setKeys prev cur).mode = s.mode := rfl
@[simp] theorem setKeys_fault (prev cur : Vector Bool 16) : (s.setKeys prev cur).fault = s.fault := rfl
@[simp] theorem setKeys_mem (prev cur : Vector Bool 16) : (s.setKeys prev cur).mem = s.mem := rfl
@[simp] theorem setKeys_inputs (prev cur : Vector Bool 16) : (s.setKeys prev cur).inputs = s.inputs := rfl
@[simp] theorem setKeys_inputNo (prev cur : Vector Bool 16) : (s.setKeys prev cur).inputNo = s.inputNo := rfl

/-! ### setOp -/

@[simp] theorem setOp_params (w : Word) : (s.setOp w).params = s.params := rfl
@[simp] theorem setOp_v (w : Word) : (s.setOp w).v = s.v := rfl
@[simp] theorem setOp_vWritten (w : Word) : (s.setOp w).vWritten = s.vWritten := rfl
@[simp] theorem setOp_index (w : Word) : (s.setOp w).index = s.index := rfl
@[simp] theorem setOp_indexWritten (w : Word) : (s.setOp w).indexWritten = s.indexWritten := rfl
@[simp] theorem setOp_pc (w : Word) : (s.setOp w).pc = s.pc := rfl
@[simp] theorem setOp_stack (w : Word) : (s.setOp w).stack = s.stack := rfl
@[simp] theorem setOp_sp (w : Word) : (s.setOp w).sp = s.sp := rfl
@[simp] theorem setOp_dt (w : Word) : (s.setOp w).dt = s.dt := rfl
@[simp] theorem setOp_st (w : Word) : (s.setOp w).st = s.st := rfl
@[simp] theorem setOp_display (w : Word) : (s.setOp w).display = s.display := rfl
@[simp] theorem setOp_keysCur (w : Word) : (s.setOp w).keysCur = s.keysCur := rfl
@[simp] theorem setOp_keysPrev (w : Word) : (s.setOp w).keysPrev = s.keysPrev := rfl
@[simp] theorem setOp_op (w : Word) : (s.setOp w).op = w := rfl
@[simp] theorem setOp_mode (w : Word) : (s.setOp w).mode = s.mode := rfl
@[simp] theorem setOp_fault (w : Word) : (s.setOp w).fault = s.fault := rfl
@[simp] theorem setOp_mem (w : Word) : (s.setOp w).mem = s.mem := rfl
@[simp] theorem setOp_inputs (w : Word) : (s.setOp w).inputs = s.inputs := rfl
@[simp] theorem setOp_inputNo (w : Word) : (s.setOp w).inputNo = s.inputNo := rfl

/-! ### setFault -/

@[simp] theorem setFault_params (f : Option FaultRecord) : (s.setFault f).params = s.params := rfl
@[simp] theorem setFault_v (f : Option FaultRecord) : (s.setFault f).v = s.v := rfl
@[simp] theorem setFault_vWritten (f : Option FaultRecord) : (s.setFault f).vWritten = s.vWritten := rfl
@[simp] theorem setFault_index (f : Option FaultRecord) : (s.setFault f).index = s.index := rfl
@[simp] theorem setFault_indexWritten (f : Option FaultRecord) : (s.setFault f).indexWritten = s.indexWritten := rfl
@[simp] theorem setFault_pc (f : Option FaultRecord) : (s.setFault f).pc = s.pc := rfl
@[simp] theorem setFault_stack (f : Option FaultRecord) : (s.setFault f).stack = s.stack := rfl
@[simp] theorem setFault_sp (f : Option FaultRecord) : (s.setFault f).sp = s.sp := rfl
@[simp] theorem setFault_dt (f : Option FaultRecord) : (s.setFault f).dt = s.dt := rfl
@[simp] theorem setFault_st (f : Option FaultRecord) : (s.setFault f).st = s.st := rfl
@[simp] theorem setFault_display (f : Option FaultRecord) : (s.setFault f).display = s.display := rfl
@[simp] theorem setFault_keysCur (f : Option FaultRecord) : (s.setFault f).keysCur = s.keysCur := rfl
@[simp] theorem setFault_keysPrev (f : Option FaultRecord) : (s.setFault f).keysPrev = s.keysPrev := rfl
@[simp] theorem setFault_op (f : Option FaultRecord) : (s.setFault f).op = s.op := rfl
@[simp] theorem setFault_mode (f : Option FaultRecord) : (s.setFault f).mode = s.mode := rfl
@[simp] theorem setFault_fault (f : Option FaultRecord) : (s.setFault f).fault = f := rfl
@[simp] theorem setFault_mem (f : Option FaultRecord) : (s.setFault f).mem = s.mem := rfl
@[simp] theorem setFault_inputs (f : Option FaultRecord) : (s.setFault f).inputs = s.inputs := rfl
@[simp] theorem setFault_inputNo (f : Option FaultRecord) : (s.setFault f).inputNo = s.inputNo := rfl

/-! ### setInputs -/

@[simp] theorem setInputs_params (l : List StepInput) (n : Nat) : (s.setInputs l n).params = s.params := rfl
@[simp] theorem setInputs_v (l : List StepInput) (n : Nat) : (s.setInputs l n).v = s.v := rfl
@[simp] theorem setInputs_vWritten (l : List StepInput) (n : Nat) : (s.setInputs l n).vWritten = s.vWritten := rfl
@[simp] theorem setInputs_index (l : List StepInput) (n : Nat) : (s.setInputs l n).index = s.index := rfl
@[simp] theorem setInputs_indexWritten (l : List StepInput) (n : Nat) : (s.setInputs l n).indexWritten = s.indexWritten := rfl
@[simp] theorem setInputs_pc (l : List StepInput) (n : Nat) : (s.setInputs l n).pc = s.pc := rfl
@[simp] theorem setInputs_stack (l : List StepInput) (n : Nat) : (s.setInputs l n).stack = s.stack := rfl
@[simp] theorem setInputs_sp (l : List StepInput) (n : Nat) : (s.setInputs l n).sp = s.sp := rfl
@[simp] theorem setInputs_dt (l : List StepInput) (n : Nat) : (s.setInputs l n).dt = s.dt := rfl
@[simp] theorem setInputs_st (l : List StepInput) (n : Nat) : (s.setInputs l n).st = s.st := rfl
@[simp] theorem setInputs_display (l : List StepInput) (n : Nat) : (s.setInputs l n).display = s.display := rfl
@[simp] theorem setInputs_keysCur (l : List StepInput) (n : Nat) : (s.setInputs l n).keysCur = s.keysCur := rfl
@[simp] theorem setInputs_keysPrev (l : List StepInput) (n : Nat) : (s.setInputs l n).keysPrev = s.keysPrev := rfl
@[simp] theorem setInputs_op (l : List StepInput) (n : Nat) : (s.setInputs l n).op = s.op := rfl
@[simp] theorem setInputs_mode (l : List StepInput) (n : Nat) : (s.setInputs l n).mode = s.mode := rfl
@[simp] theorem setInputs_fault (l : List StepInput) (n : Nat) : (s.setInputs l n).fault = s.fault := rfl
@[simp] theorem setInputs_mem (l : List StepInput) (n : Nat) : (s.setInputs l n).mem = s.mem := rfl
@[simp] theorem setInputs_inputs (l : List StepInput) (n : Nat) : (s.setInputs l n).inputs = l := rfl
@[simp] theorem setInputs_inputNo (l : List StepInput) (n : Nat) : (s.setInputs l n).inputNo = n := rfl

end Sys2Proof.Machine.State
end

