-- ==== Sys2Proof/Laws/Memory.lean ====
section
/-! SUPPORT. Memory: reading after a write, and that every memory operation keeps the canonical form. -/

namespace Sys2Proof.Machine

variable {p : Params} {m : Memory}

theorem Memory.wf_iff : Memory.wf p m = true ↔
    rising m = true ∧ ∀ c ∈ m, c.1 ≤ 0xFFF ∧ resetByte p c.1 ≠ some c.2 := by
  simp [Memory.wf, List.all_eq_true]

theorem Memory.nil_wf (p : Params) : Memory.wf p [] = true := rfl

/-- A read after a write: the byte written, and every other byte as before. -/
theorem Memory.read_write (h : Memory.wf p m = true) (a j : Nat) (b : Byte) :
    Memory.read p (Memory.write p m a b) j = if a = j then some b else Memory.read p m j := by
  have hr := (Memory.wf_iff.mp h).1
  unfold Memory.read Memory.write
  by_cases hd : resetByte p a = some b
  · rw [if_pos hd, cellAt_dropCell hr]
    by_cases hj : a = j
    · subst hj; simp [hd]
    · simp [hj]
  · rw [if_neg hd, cellAt_putCell]
    by_cases hj : a = j <;> simp [hj]

/-- A write inside the array keeps the canonical form. -/
theorem Memory.write_wf (h : Memory.wf p m = true) {a : Nat} (ha : a ≤ 0xFFF) (b : Byte) :
    Memory.wf p (Memory.write p m a b) = true := by
  obtain ⟨hr, hc⟩ := Memory.wf_iff.mp h
  unfold Memory.write
  split
  · exact Memory.wf_iff.mpr ⟨rising_dropCell hr a, fun c hm => hc c (mem_dropCell hm)⟩
  · rename_i hd
    refine Memory.wf_iff.mpr ⟨rising_putCell hr a b, fun c hm => ?_⟩
    rcases mem_putCell hm with rfl | hm
    · exact ⟨ha, hd⟩
    · exact hc c hm

namespace State

variable (s : State)

@[simp] theorem storeByte_params (a : Nat) (b : Byte) : (s.storeByte a b).params = s.params := rfl

/-- A store writes nothing but memory. -/
theorem storeBytes_eq (a : Nat) (l : List Byte) : ∃ m, s.storeBytes a l = s.setMem m := by
  induction l generalizing s a with
  | nil => exact ⟨s.mem, rfl⟩
  | cons b l ih =>
    obtain ⟨m, hm⟩ := ih (s.storeByte a b) (a + 1)
    exact ⟨m, by rw [storeBytes, hm]; rfl⟩

/-- Stores inside the array keep the canonical form. -/
theorem storeBytes_wf (h : Memory.wf s.params s.mem = true) (a : Nat) (l : List Byte)
    (ha : a + l.length ≤ 0x1000) : Memory.wf s.params (s.storeBytes a l).mem = true := by
  induction l generalizing s a with
  | nil => exact h
  | cons b l ih =>
    rw [List.length_cons] at ha
    have hw : Memory.wf s.params (s.storeByte a b).mem = true := Memory.write_wf h (by omega) b
    exact ih (s.storeByte a b) hw (a + 1) (by omega)

/-- Reading one byte after a store of bytes: the byte stored there, else what was there. -/
theorem storeBytes_peek (h : Memory.wf s.params s.mem = true) (a : Nat) (l : List Byte)
    (ha : a + l.length ≤ 0x1000) (j : Nat) :
    (s.storeBytes a l).peek j = if a ≤ j ∧ j < a + l.length then l[j - a]? else s.peek j := by
  induction l generalizing s a with
  | nil => rw [if_neg (by simp)]; rfl
  | cons b l ih =>
    rw [List.length_cons] at ha
    have hw : Memory.wf s.params (s.storeByte a b).mem = true := Memory.write_wf h (by omega) b
    have hp : (s.storeByte a b).peek j = if a = j then some b else s.peek j := Memory.read_write h a j b
    rw [storeBytes, ih (s.storeByte a b) hw (a + 1) (by omega), hp, List.length_cons]
    rcases Nat.lt_trichotomy a j with hj | rfl | hj
    · by_cases hb : j < a + 1 + l.length
      · rw [if_pos (by omega), if_pos (by omega), show j - a = (j - (a + 1)) + 1 by omega, List.getElem?_cons_succ]
      · rw [if_neg (by omega), if_neg (by omega), if_neg (by omega)]
    · rw [if_neg (by omega), if_pos rfl, if_pos (by omega)]
      simp
    · rw [if_neg (by omega), if_neg (by omega), if_neg (by omega)]

/-- Reset lists nothing, and that is canonical. -/
theorem constructed_wf (p : Params) : Memory.wf (State.constructed p).params (State.constructed p).mem = true := rfl

end State

end Sys2Proof.Machine
end

