-- ==== Sys2Proof/Laws/Ops.lean ====
section
/-! SUPPORT. What each shared operation over registers, reads and faults can do. -/

namespace Sys2Proof.Machine

namespace State

variable (s : State)

/-! ### Reads -/

theorem readV_written {x : Reg} (h : s.vWritten[x.val] = true) : s.readV x = .ok s.v[x.val] := by simp [readV, h]

theorem readV_unwritten {x : Reg} (h : s.vWritten[x.val] = false) :
    s.readV x = .error (.uninitializedRead (.v x)) := by simp [readV, h]

theorem readV_ok_iff {x : Reg} {b : Byte} : s.readV x = .ok b ↔ s.vWritten[x.val] = true ∧ s.v[x.val] = b := by
  unfold readV
  split <;> simp_all

theorem readI_written (h : s.indexWritten = true) : s.readI = .ok s.index := by simp [readI, h]

theorem readI_unwritten (h : s.indexWritten = false) : s.readI = .error (.uninitializedRead .index) := by
  simp [readI, h]

theorem readI_ok_iff {w : Word} : s.readI = .ok w ↔ s.indexWritten = true ∧ s.index = w := by
  unfold readI
  split <;> simp_all

theorem readMem_ok_iff {a : Nat} {b : Byte} : s.readMem a = .ok b ↔ a ≤ 0xFFF ∧ s.peek a = some b := by
  unfold readMem
  split
  · simp; omega
  · split <;> simp_all

/-! ### Going on after a read, or raising its fault -/

@[simp] theorem orFault_ok {α : Type} (a : α) (k : α → Result) : s.orFault (.ok a) k = k a := rfl

@[simp] theorem orFault_error {α : Type} (r : FaultReason) (k : α → Result) :
    s.orFault (.error r) k = s.raise r := rfl

/-- All that `orFault` can do. -/
theorem orFault_cases {α : Type} (e : Except FaultReason α) (k : α → Result) :
    (∃ a, e = .ok a ∧ s.orFault e k = k a) ∨ (∃ r, e = .error r ∧ s.orFault e k = s.raise r) := by
  cases e with
  | ok a => exact .inl ⟨a, rfl, rfl⟩
  | error r => exact .inr ⟨r, rfl, rfl⟩

/-- All that `raise` does: the record, and nothing else. -/
theorem raise_eq (r : FaultReason) :
    s.raise r = .next { s with fault := some { reason := r, pc := s.pc - 2, op := some s.op } } := rfl

/-! ### Register writes -/

theorem writeV_v_self (x : Reg) (b : Byte) : (s.writeV x b).v[x.val] = b := by simp

theorem writeV_v_other {x r : Reg} (b : Byte) (h : r ≠ x) : (s.writeV x b).v[r.val] = s.v[r.val] := by
  simp [Fin.val_ne_of_ne h.symm]

theorem writeV_vWritten_self (x : Reg) (b : Byte) : (s.writeV x b).vWritten[x.val] = true := by simp

theorem writeV_vWritten_other {x r : Reg} (b : Byte) (h : r ≠ x) :
    (s.writeV x b).vWritten[r.val] = s.vWritten[r.val] := by
  simp [Fin.val_ne_of_ne h.symm]

/-- A write of a register list writes nothing but registers. -/
theorem writeVs_eq (l : List (Reg × Byte)) : ∃ v w, s.writeVs l = { s with v := v, vWritten := w } := by
  induction l generalizing s with
  | nil => exact ⟨s.v, s.vWritten, rfl⟩
  | cons c l ih =>
    obtain ⟨v, w, h⟩ := ih (s.writeV c.1 c.2)
    exact ⟨v, w, by rw [writeVs, h]; rfl⟩

/-- A register outside the list is unchanged by `writeVs`. -/
theorem writeVs_other {r : Reg} (l : List (Reg × Byte)) (h : ∀ c ∈ l, c.1 ≠ r) :
    (s.writeVs l).v[r.val] = s.v[r.val] ∧ (s.writeVs l).vWritten[r.val] = s.vWritten[r.val] := by
  induction l generalizing s with
  | nil => exact ⟨rfl, rfl⟩
  | cons c l ih =>
    have hc : r ≠ c.1 := fun e => h c (by simp) e.symm
    obtain ⟨h1, h2⟩ := ih (s.writeV c.1 c.2) fun d hd => h d (by simp [hd])
    exact ⟨h1.trans (s.writeV_v_other c.2 hc), h2.trans (s.writeV_vWritten_other c.2 hc)⟩

/-- A register in a list without repeats ends with its value. -/
theorem writeVs_mem {r : Reg} {b : Byte} (l : List (Reg × Byte)) (hn : (l.map Prod.fst).Nodup) (h : (r, b) ∈ l) :
    (s.writeVs l).v[r.val] = b ∧ (s.writeVs l).vWritten[r.val] = true := by
  induction l generalizing s with
  | nil => cases h
  | cons c l ih =>
    obtain ⟨hc, hn⟩ := List.nodup_cons.mp hn
    rcases List.mem_cons.mp h with rfl | h
    · have hl : ∀ d ∈ l, d.1 ≠ r := fun d hd e => hc (List.mem_map.mpr ⟨d, hd, e⟩)
      obtain ⟨h1, h2⟩ := (s.writeV r b).writeVs_other l hl
      exact ⟨h1.trans (s.writeV_v_self r b), h2.trans (s.writeV_vWritten_self r b)⟩
    · exact ih (s.writeV c.1 c.2) hn h

/-! ### The stack -/

theorem setStackEntry_stackEntry (k j : Nat) (w : Word) :
    (s.setStackEntry k w).stackEntry j = if k = j then w else s.stackEntry j := by
  unfold stackEntry
  rw [setStackEntry_stack, cellAt_putCell]
  split <;> rfl

end State

/-! ### Reads made one after another -/

theorem readAll_ok_iff {α : Type} {es : List (Except FaultReason α)} {l : List α} :
    readAll es = .ok l ↔ es = l.map .ok := by
  induction es generalizing l with
  | nil => cases l <;> simp [readAll]
  | cons e es ih =>
    cases e with
    | error r => cases l <;> simp [readAll]
    | ok a =>
      cases hr : readAll es with
      | error r =>
        simp only [readAll, hr, reduceCtorEq, false_iff]
        rintro h
        cases l with
        | nil => simp at h
        | cons b l =>
          simp only [List.map_cons, List.cons.injEq] at h
          rw [ih.mpr h.2] at hr
          cases hr
      | ok l' =>
        have := ih.mp hr
        subst this
        cases l with
        | nil => simp [readAll, hr]
        | cons b l =>
          simp only [readAll, hr, Except.ok.injEq, List.map_cons, List.cons.injEq]
          constructor
          · rintro ⟨rfl, rfl⟩; exact ⟨rfl, rfl⟩
          · rintro ⟨rfl, h⟩
            exact ⟨rfl, List.map_injective_iff.mpr (fun _ _ h => Except.ok.inj h) h⟩

/-- The values read, one per read. -/
theorem readAll_length {α : Type} {es : List (Except FaultReason α)} {l : List α} (h : readAll es = .ok l) :
    l.length = es.length := by
  rw [readAll_ok_iff.mp h, List.length_map]

/-- `readBytes` answers the bytes at `a`, `a + 1`, and so on, all inside the array. -/
theorem State.readBytes_ok_iff {s : State} {a n : Nat} {l : List Byte} :
    s.readBytes a n = .ok l ↔ l.length = n ∧ ∀ k (hk : k < l.length), a + k ≤ 0xFFF ∧ s.peek (a + k) = some l[k] := by
  unfold State.readBytes
  rw [readAll_ok_iff]
  constructor
  · intro h
    have hl : l.length = n := by simpa using (congrArg List.length h).symm
    refine ⟨hl, fun k hk => ?_⟩
    have := congrArg (fun x => x[k]?) h
    simp only [List.getElem?_map, List.getElem?_range (hl ▸ hk), List.getElem?_eq_getElem hk, Option.map_some,
      Option.some.injEq] at this
    exact s.readMem_ok_iff.mp this
  · rintro ⟨rfl, h⟩
    apply List.ext_getElem (by simp)
    intro k h1 h2
    simp only [List.getElem_map, List.getElem_range]
    exact s.readMem_ok_iff.mpr (h k (by simpa using h2))

theorem keyIndex_ok {b : Byte} (h : b.toNat < 16) : keyIndex b = .ok ⟨b.toNat, h⟩ := by simp [keyIndex, h]

theorem keyIndex_error {b : Byte} (h : 16 ≤ b.toNat) : keyIndex b = .error (.keyIndexOutOfRange b) := by
  simp [keyIndex, show ¬ b.toNat < 16 by omega]

theorem checkAddr_ok {a : Nat} (h : a ≤ 0xFFF) : checkAddr a = .ok () := by simp [checkAddr, show ¬ a > 0xFFF by omega]

theorem checkAddr_error {a : Nat} (h : 0xFFF < a) : checkAddr a = .error (.memOutOfRange a) := by simp [checkAddr, h]

theorem checkAddr_ok_iff {a : Nat} {u : Unit} : checkAddr a = .ok u ↔ a ≤ 0xFFF := by
  unfold checkAddr
  split <;> simp <;> omega

/-! ### The registers `V[0]` to `V[x]` -/

theorem mem_regsUpTo {x r : Reg} : r ∈ regsUpTo x ↔ r.val ≤ x.val := by
  revert x r; decide

theorem regsUpTo_nodup (x : Reg) : (regsUpTo x).Nodup := by
  revert x; decide

theorem regsUpTo_length (x : Reg) : (regsUpTo x).length = x.val + 1 := by
  revert x; decide

theorem regsUpTo_getElem {x : Reg} {k : Nat} (h : k < (regsUpTo x).length) : ((regsUpTo x)[k]).val = k := by
  have hx := x.isLt
  have hk : k < 16 := by rw [regsUpTo_length] at h; omega
  simp only [regsUpTo, List.getElem_take]
  interval_cases k <;> rfl

end Sys2Proof.Machine
end

