-- ==== Sys2Proof/Laws/Draw.lean ====
section
/-! SUPPORT. What drawing cells does to the display, and that a sprite draws no cell twice (43_display.md R211). -/

namespace Sys2Proof.Machine

theorem Display.toggle_cell (d : Display) (px qx : Fin 64) (py qy : Fin 32) :
    (d.toggle px py).cell qx qy = if px = qx ∧ py = qy then !d.cell qx qy else d.cell qx qy := by
  unfold Display.toggle Display.cell
  by_cases hy : py = qy
  · subst hy
    by_cases hx : px = qx
    · subst hx; simp
    · simp [hx, Fin.val_ne_of_ne hx]
  · simp [hy, Fin.val_ne_of_ne hy]

@[simp] theorem Display.blank_cell (px : Fin 64) (py : Fin 32) : Display.blank.cell px py = false := by
  simp [Display.blank, Display.cell]

/-- Two displays with the same cells are equal. -/
theorem Display.ext_cell {d e : Display} (h : ∀ px py, d.cell px py = e.cell px py) : d = e := by
  apply Vector.ext
  intro i hi
  apply Vector.ext
  intro j hj
  exact h ⟨j, hj⟩ ⟨i, hi⟩

/-- Drawing cells none of which occurs twice: each is XORed once, and the flag says whether one of them was 1. -/
theorem drawCells_spec (cells : List (Fin 64 × Fin 32)) (hn : cells.Nodup) (d : Display) (hit : Bool) :
    (∀ qx qy, (drawCells d hit cells).1.cell qx qy = (d.cell qx qy ^^ decide ((qx, qy) ∈ cells))) ∧
    ((drawCells d hit cells).2 = true ↔ hit = true ∨ ∃ c ∈ cells, d.cell c.1 c.2 = true) := by
  induction cells generalizing d hit with
  | nil => simp [drawCells]
  | cons c cells ih =>
    obtain ⟨px, py⟩ := c
    obtain ⟨hc, hn⟩ := List.nodup_cons.mp hn
    obtain ⟨h1, h2⟩ := ih hn (d.toggle px py) (hit || d.cell px py)
    refine ⟨fun qx qy => ?_, ?_⟩
    · rw [drawCells, h1, Display.toggle_cell]
      by_cases hq : px = qx ∧ py = qy
      · obtain ⟨rfl, rfl⟩ := hq
        simp [hc]
      · have : (qx, qy) ≠ (px, py) := fun e => hq ⟨(Prod.mk.inj e).1.symm, (Prod.mk.inj e).2.symm⟩
        simp [hq, List.mem_cons, this]
    · rw [drawCells, h2]
      have : ∀ q ∈ cells, (d.toggle px py).cell q.1 q.2 = d.cell q.1 q.2 := by
        rintro ⟨qx, qy⟩ hq
        rw [Display.toggle_cell, if_neg]
        rintro ⟨rfl, rfl⟩
        exact hc hq
      simp only [Bool.or_eq_true, List.mem_cons, exists_eq_or_imp, or_assoc]
      constructor
      · rintro (h | h | ⟨q, hq, h⟩)
        · exact .inl h
        · exact .inr (.inl h)
        · exact .inr (.inr ⟨q, hq, this q hq ▸ h⟩)
      · rintro (h | h | ⟨q, hq, h⟩)
        · exact .inl h
        · exact .inr (.inl h)
        · exact .inr (.inr ⟨q, hq, (this q hq).symm ▸ h⟩)

/-! ### No cell twice -/

theorem pixelCell_some_iff {clip : Bool} {cx cy b r : Nat} {c : Fin 64 × Fin 32} :
    pixelCell clip cx cy b r = some c ↔ c.1.val = (cx + b) % 64 ∧ c.2.val = (cy + r) % 32 ∧
      (clip = true → cx + b < 64 ∧ cy + r < 32) := by
  obtain ⟨px, py⟩ := c
  unfold pixelCell
  cases clip
  · simp only [Bool.false_eq_true, if_false, Option.some.injEq, Prod.mk.injEq, false_imp_iff, and_true]
    constructor
    · rintro ⟨rfl, rfl⟩; exact ⟨rfl, rfl⟩
    · rintro ⟨h1, h2⟩; exact ⟨Fin.ext h1.symm, Fin.ext h2.symm⟩
  · simp only [if_true, forall_const]
    split
    · rename_i h
      simp only [Option.some.injEq, Prod.mk.injEq, Fin.ext_iff]
      omega
    · rename_i h
      simp only [reduceCtorEq, false_iff]
      tauto

/-- A cell of a sprite row lies in the row's display row. -/
theorem mem_rowCells {clip : Bool} {cx cy r : Nat} {row : Byte} {c : Fin 64 × Fin 32} :
    c ∈ rowCells clip cx cy r row ↔
      ∃ b < 8, row.getLsbD (7 - b) = true ∧ pixelCell clip cx cy b r = some c := by
  simp only [rowCells, List.mem_filterMap, List.mem_range]
  constructor
  · rintro ⟨b, hb, h⟩
    split at h
    · exact ⟨b, hb, ‹_›, h⟩
    · cases h
  · rintro ⟨b, hb, h1, h2⟩
    exact ⟨b, hb, by rw [if_pos h1, h2]⟩

theorem mem_spriteCells {clip : Bool} {cx cy r : Nat} {rows : List Byte} {c : Fin 64 × Fin 32} :
    c ∈ spriteCells clip cx cy r rows ↔ ∃ k, ∃ hk : k < rows.length, ∃ b < 8,
      rows[k].getLsbD (7 - b) = true ∧ pixelCell clip cx cy b (r + k) = some c := by
  induction rows generalizing r with
  | nil => simp [spriteCells]
  | cons row rows ih =>
    rw [spriteCells, List.mem_append, mem_rowCells, ih]
    constructor
    · rintro (⟨b, hb, h⟩ | ⟨k, hk, b, hb, h⟩)
      · exact ⟨0, by simp, b, hb, h⟩
      · exact ⟨k + 1, by simpa using hk, b, hb, by simpa [show r + (k + 1) = r + 1 + k by omega] using h⟩
    · rintro ⟨k, hk, b, hb, h⟩
      cases k with
      | zero => exact .inl ⟨b, hb, h⟩
      | succ k =>
        exact .inr ⟨k, by simpa using hk, b, hb, by simpa [show r + (k + 1) = r + 1 + k by omega] using h⟩

theorem rowCells_nodup (clip : Bool) (cx cy r : Nat) (row : Byte) : (rowCells clip cx cy r row).Nodup := by
  unfold rowCells List.Nodup
  rw [List.pairwise_filterMap]
  refine List.nodup_range.imp_of_mem fun {b b'} hb hb' hne c hc c' hc' => ?_
  rw [List.mem_range] at hb hb'
  split at hc <;> split at hc'
  · rintro rfl
    have h := (pixelCell_some_iff.mp hc).1
    have h' := (pixelCell_some_iff.mp hc').1
    omega
  · cases hc'
  · cases hc
  · cases hc

/-- No two pixels of one sprite of at most 32 rows land on the same cell (43_display.md R211). -/
theorem spriteCells_nodup (clip : Bool) (cx cy r : Nat) (rows : List Byte) (hr : rows.length ≤ 32) :
    (spriteCells clip cx cy r rows).Nodup := by
  induction rows generalizing r with
  | nil => exact List.nodup_nil
  | cons row rows ih =>
    rw [List.length_cons] at hr
    rw [spriteCells]
    refine List.Nodup.append (rowCells_nodup ..) (ih (r + 1) (by omega)) fun c hc hc' => ?_
    obtain ⟨b, -, -, h⟩ := mem_rowCells.mp hc
    obtain ⟨k, hk, b', -, -, h'⟩ := mem_spriteCells.mp hc'
    have e := (pixelCell_some_iff.mp h).2.1
    have e' := (pixelCell_some_iff.mp h').2.1
    omega

/-- The rows a draw reads: `n` bytes at `I`, and `I` itself only when there is a row. -/
theorem State.spriteRows_ok_iff {s : State} {n : Nibble} {rows : List Byte} :
    s.spriteRows n = .ok rows ↔
      (n = 0 ∧ rows = []) ∨ (n ≠ 0 ∧ s.indexWritten = true ∧ s.readBytes s.index.toNat n.toNat = .ok rows) := by
  unfold State.spriteRows
  by_cases hn : n = 0
  · rw [if_pos hn, Except.ok.injEq]
    exact ⟨fun h => .inl ⟨hn, h.symm⟩, fun h => h.elim (fun h => h.2.symm) fun h => absurd hn h.1⟩
  · rw [if_neg hn]
    cases hw : s.indexWritten
    · rw [s.readI_unwritten hw]
      exact ⟨fun h => (by cases h), fun h => h.elim (fun h => absurd h.1 hn) fun h => (by cases h.2.1)⟩
    · rw [s.readI_written hw]
      exact ⟨fun h => .inr ⟨hn, rfl, h⟩, fun h => h.elim (fun h => absurd h.1 hn) fun h => h.2.2⟩

end Sys2Proof.Machine
end

