-- ==== Sys2Proof/Laws/Step.lean ====
section
/-! SUPPORT. What the phases of a step do, and all that a step can do. -/

namespace Sys2Proof.Machine

namespace State

variable (s : State)

/-! ### The phases -/

@[simp] theorem pressed_getElem (keys : Vector Byte 16) (k : Nat) (h : k < 16) :
    (pressed keys)[k] = (keys[k] != 0) := by
  simp [pressed, Vector.getElem_mk]

theorem latchKeys_eq : s.latchKeys = { s with keysPrev := s.keysCur, keysCur := pressed s.input.keys } := rfl

theorem enterExecute_eq (op : Word) : s.enterExecute op = { s with op := op, pc := s.pc + 2 } := rfl

theorem finish_eq : s.finish =
    { s with dt := countDown s.input.tick s.dt, st := countDown s.input.tick s.st,
             inputs := s.inputs.tail, inputNo := s.inputNo + 1 } := rfl

/-- The end of a step, in terms of the inputs of the state it began in. -/
theorem finish_eq_of_inputs {u : State} (h : u.inputs = s.inputs) (h' : u.inputNo = s.inputNo) : u.finish =
    { u with dt := countDown s.input.tick u.dt, st := countDown s.input.tick u.st,
             inputs := s.inputs.tail, inputNo := s.inputNo + 1 } := by
  have hi : u.input = s.input := by unfold input; rw [h, h']
  rw [finish_eq, hi, h, h']

theorem settle_fault {t : State} {f : FaultRecord} (h : t.fault = some f) :
    s.settle t = { s with fault := some f } := by
  unfold settle; rw [h]; rfl

theorem settle_ok {t : State} (h : t.fault = none) : s.settle t = t.finish := by
  unfold settle; rw [h]

@[simp] theorem latchKeys_readMem (a : Nat) : s.latchKeys.readMem a = s.readMem a := rfl

@[simp] theorem latchKeys_fetchOp : s.latchKeys.fetchOp = s.fetchOp := rfl

/-- A fetch succeeds exactly when both bytes are in the array and written (40_engine_cycle.md R113). -/
theorem fetchOp_ok_iff {op : Word} : s.fetchOp = .ok op ↔
    s.pc.toNat + 1 ≤ 0xFFF ∧ s.peek s.pc.toNat = some (opHi op) ∧ s.peek (s.pc.toNat + 1) = some (opLo op) := by
  unfold fetchOp
  split
  · simp only [reduceCtorEq, false_iff]; omega
  · rename_i hp
    constructor
    · intro h
      split at h
      · cases h
      · rename_i hi e1
        split at h
        · cases h
        · rename_i lo e2
          cases h
          simp only [opHi_composeOp, opLo_composeOp]
          exact ⟨by omega, (s.readMem_ok_iff.mp e1).2, (s.readMem_ok_iff.mp e2).2⟩
    · rintro ⟨-, h1, h2⟩
      rw [s.readMem_ok_iff.mpr ⟨by omega, h1⟩]
      dsimp only
      rw [s.readMem_ok_iff.mpr ⟨by omega, h2⟩]
      simp

end State

/-! ### The step -/

/-- A faulted block has no step. -/
theorem step_faulted {s : State} {f : FaultRecord} (h : s.fault = some f) : step s = .fault (.halted f) := by
  unfold step; rw [h]

/-- A step while waiting for a key. -/
theorem step_waiting {s : State} (hf : s.fault = none) (hm : s.mode = .waitingForKey) :
    step s = .next s.waitStep := by
  unfold step; rw [hf, hm]

/-- A step whose fetch faults. -/
theorem step_fetch_fault {s : State} {r : FaultReason} (hf : s.fault = none) (hm : s.mode = .ready)
    (h : s.fetchOp = .error r) : step s = .next (s.takeFault r s.pc none) := by
  unfold step; rw [hf, hm]; dsimp only; rw [s.latchKeys_fetchOp, h]

/-- A step whose word is unimplemented. -/
theorem step_unimplemented {s : State} {op : Word} (hf : s.fault = none) (hm : s.mode = .ready)
    (h : s.fetchOp = .ok op) (hd : decodeWord op = none) :
    step s = .next (s.takeFault (.unimplemented op) s.pc (some op)) := by
  unfold step; rw [hf, hm]; dsimp only; rw [s.latchKeys_fetchOp, h]; dsimp only; rw [hd]

/-- A step that runs an instruction. -/
theorem step_exec {s : State} {op : Word} {i : Instr} (hf : s.fault = none) (hm : s.mode = .ready)
    (h : s.fetchOp = .ok op) (hd : decodeWord op = some i) :
    step s = settleResult s (exec i (s.latchKeys.enterExecute op)) := by
  unfold step; rw [hf, hm]; dsimp only; rw [s.latchKeys_fetchOp, h]; dsimp only; rw [hd]

/-- All that a step with a next state can have done. -/
theorem step_cases {s t : State} (h : step s = .next t) :
    s.fault = none ∧
    ((s.mode = .waitingForKey ∧ t = s.waitStep) ∨
     (s.mode = .ready ∧
      ((∃ r, s.fetchOp = .error r ∧ t = s.takeFault r s.pc none) ∨
       (∃ op, s.fetchOp = .ok op ∧ decodeWord op = none ∧ t = s.takeFault (.unimplemented op) s.pc (some op)) ∨
       (∃ op i u, s.fetchOp = .ok op ∧ decodeWord op = some i ∧
          exec i (s.latchKeys.enterExecute op) = .next u ∧ t = s.settle u)))) := by
  cases hf : s.fault with
  | some f => rw [step_faulted hf] at h; cases h
  | none =>
    refine ⟨rfl, ?_⟩
    cases hm : s.mode with
    | waitingForKey =>
      rw [step_waiting hf hm] at h
      cases h
      exact .inl ⟨rfl, rfl⟩
    | ready =>
      refine .inr ⟨rfl, ?_⟩
      cases ho : s.fetchOp with
      | error r =>
        rw [step_fetch_fault hf hm ho] at h
        cases h
        exact .inl ⟨r, rfl, rfl⟩
      | ok op =>
        cases hd : decodeWord op with
        | none =>
          rw [step_unimplemented hf hm ho hd] at h
          cases h
          exact .inr (.inl ⟨op, rfl, hd, rfl⟩)
        | some i =>
          rw [step_exec hf hm ho hd] at h
          refine .inr (.inr ⟨op, i, ?_⟩)
          cases hu : exec i (s.latchKeys.enterExecute op) with
          | next u =>
            rw [hu] at h
            cases h
            exact ⟨u, rfl, hd, rfl, rfl⟩
          | fault r => rw [hu] at h; cases h
          | refused r => rw [hu] at h; cases h

end Sys2Proof.Machine
end

