-- ==== Sys2Proof/Laws/Exec.lean ====
section
/-! SUPPORT. The arms of `exec` by name, what a register write leaves (for `Frame`), the stack checks, the first error
of a list of reads, and the first key transition. -/

namespace Sys2Proof.Machine

/-! ### The arms -/

@[simp] theorem exec_cls (s : State) : exec .cls s = execCls s := rfl
@[simp] theorem exec_ret (s : State) : exec .ret s = execRet s := rfl
@[simp] theorem exec_jp (nnn : Addr) (s : State) : exec (.jp nnn) s = execJp nnn s := rfl
@[simp] theorem exec_call (nnn : Addr) (s : State) : exec (.call nnn) s = execCall nnn s := rfl
@[simp] theorem exec_seImm (x : Reg) (nn : Byte) (s : State) : exec (.seImm x nn) s = execSeImm x nn s := rfl
@[simp] theorem exec_sneImm (x : Reg) (nn : Byte) (s : State) : exec (.sneImm x nn) s = execSneImm x nn s := rfl
@[simp] theorem exec_seReg (x y : Reg) (s : State) : exec (.seReg x y) s = execSeReg x y s := rfl
@[simp] theorem exec_ldImm (x : Reg) (nn : Byte) (s : State) : exec (.ldImm x nn) s = execLdImm x nn s := rfl
@[simp] theorem exec_addImm (x : Reg) (nn : Byte) (s : State) : exec (.addImm x nn) s = execAddImm x nn s := rfl
@[simp] theorem exec_ldReg (x y : Reg) (s : State) : exec (.ldReg x y) s = execLdReg x y s := rfl
@[simp] theorem exec_orReg (x y : Reg) (s : State) : exec (.orReg x y) s = execOrReg x y s := rfl
@[simp] theorem exec_andReg (x y : Reg) (s : State) : exec (.andReg x y) s = execAndReg x y s := rfl
@[simp] theorem exec_xorReg (x y : Reg) (s : State) : exec (.xorReg x y) s = execXorReg x y s := rfl
@[simp] theorem exec_addReg (x y : Reg) (s : State) : exec (.addReg x y) s = execAddReg x y s := rfl
@[simp] theorem exec_subReg (x y : Reg) (s : State) : exec (.subReg x y) s = execSubReg x y s := rfl
@[simp] theorem exec_shr (x y : Reg) (s : State) : exec (.shr x y) s = execShr x y s := rfl
@[simp] theorem exec_subnReg (x y : Reg) (s : State) : exec (.subnReg x y) s = execSubnReg x y s := rfl
@[simp] theorem exec_shl (x y : Reg) (s : State) : exec (.shl x y) s = execShl x y s := rfl
@[simp] theorem exec_sneReg (x y : Reg) (s : State) : exec (.sneReg x y) s = execSneReg x y s := rfl
@[simp] theorem exec_ldI (nnn : Addr) (s : State) : exec (.ldI nnn) s = execLdI nnn s := rfl
@[simp] theorem exec_jpV0 (x : Reg) (nnn : Addr) (s : State) : exec (.jpV0 x nnn) s = execJpV0 x nnn s := rfl
@[simp] theorem exec_rnd (x : Reg) (nn : Byte) (s : State) : exec (.rnd x nn) s = execRnd x nn s := rfl
@[simp] theorem exec_drw (x y : Reg) (n : Nibble) (s : State) : exec (.drw x y n) s = execDrw x y n s := rfl
@[simp] theorem exec_skp (x : Reg) (s : State) : exec (.skp x) s = execSkp x s := rfl
@[simp] theorem exec_sknp (x : Reg) (s : State) : exec (.sknp x) s = execSknp x s := rfl
@[simp] theorem exec_ldVxDt (x : Reg) (s : State) : exec (.ldVxDt x) s = execLdVxDt x s := rfl
@[simp] theorem exec_ldVxK (x : Reg) (s : State) : exec (.ldVxK x) s = execLdVxK x s := rfl
@[simp] theorem exec_ldDtVx (x : Reg) (s : State) : exec (.ldDtVx x) s = execLdDtVx x s := rfl
@[simp] theorem exec_ldStVx (x : Reg) (s : State) : exec (.ldStVx x) s = execLdStVx x s := rfl
@[simp] theorem exec_addI (x : Reg) (s : State) : exec (.addI x) s = execAddI x s := rfl
@[simp] theorem exec_ldF (x : Reg) (s : State) : exec (.ldF x) s = execLdF x s := rfl
@[simp] theorem exec_ldB (x : Reg) (s : State) : exec (.ldB x) s = execLdB x s := rfl
@[simp] theorem exec_storeRegs (x : Reg) (s : State) : exec (.storeRegs x) s = execStoreRegs x s := rfl
@[simp] theorem exec_loadRegs (x : Reg) (s : State) : exec (.loadRegs x) s = execLoadRegs x s := rfl

/-! ### Register writes -/

theorem HoldsV.writeV (s : State) (x : Reg) (b : Byte) : HoldsV (s.writeV x b) x b :=
  ⟨s.writeV_v_self x b, s.writeV_vWritten_self x b⟩

theorem HoldsV.writeV_other {s : State} {x r : Reg} {b : Byte} (c : Byte) (hr : r ≠ x) (h : HoldsV s r b) :
    HoldsV (s.writeV x c) r b :=
  ⟨(s.writeV_v_other c hr).trans h.1, (s.writeV_vWritten_other c hr).trans h.2⟩

/-- One register write leaves the other registers. -/
theorem writeV_others (s : State) (x : Reg) (b : Byte) (r : Reg) (h : r ∉ [x]) :
    (s.writeV x b).v[r.val] = s.v[r.val] ∧ (s.writeV x b).vWritten[r.val] = s.vWritten[r.val] := by
  rw [List.mem_singleton] at h
  exact ⟨s.writeV_v_other b h, s.writeV_vWritten_other b h⟩

/-- Two register writes leave the other registers. -/
theorem writeV_writeV_others (s : State) (x y : Reg) (b c : Byte) (r : Reg) (h : r ∉ [x, y]) :
    ((s.writeV x b).writeV y c).v[r.val] = s.v[r.val] ∧
      ((s.writeV x b).writeV y c).vWritten[r.val] = s.vWritten[r.val] := by
  simp only [List.mem_cons, List.not_mem_nil, or_false, not_or] at h
  rw [State.writeV_v_other _ _ h.2, State.writeV_v_other _ _ h.1, State.writeV_vWritten_other _ _ h.2,
    State.writeV_vWritten_other _ _ h.1]
  exact ⟨rfl, rfl⟩

/-! ### The stack checks -/

theorem State.checkPush_ok {s : State} (h : s.sp ≠ 255) : s.checkPush = .ok () := if_neg h

theorem State.checkPush_error {s : State} (h : s.sp = 255) : s.checkPush = .error (.stackOverflow s.sp) := if_pos h

theorem State.checkPop_ok {s : State} (h : s.sp ≠ 0) : s.checkPop = .ok () := if_neg h

theorem State.checkPop_error {s : State} (h : s.sp = 0) : s.checkPop = .error (.stackUnderflow s.sp) := if_pos h

/-! ### Reads made one after another -/

/-- The first fault of a list of reads is the answer. -/
theorem readAll_first_error {α : Type} {es : List (Except FaultReason α)} {r : FaultReason} (k : Nat)
    (hk : es[k]? = some (.error r)) (h : ∀ j < k, ∃ a, es[j]? = some (.ok a)) : readAll es = .error r := by
  induction es generalizing k with
  | nil => simp at hk
  | cons e es ih =>
    cases k with
    | zero =>
      obtain rfl : e = .error r := by simpa using hk
      rfl
    | succ k =>
      obtain ⟨a, ha⟩ := h 0 (Nat.succ_pos k)
      obtain rfl : e = .ok a := by simpa using ha
      have := ih k (by simpa using hk) fun j hj => by simpa using h (j + 1) (by omega)
      simp [readAll, this]

/-- A data read at a readable address answers its byte. -/
theorem State.readMem_readable {s : State} {a : Nat} (h : Readable s a) : ∃ b, s.readMem a = .ok b := by
  obtain ⟨b, hb⟩ := Option.ne_none_iff_exists'.mp h.2
  exact ⟨b, s.readMem_ok_iff.mpr ⟨h.1, hb⟩⟩

/-- A data read at any other address answers its fault. -/
theorem State.readMem_not_readable {s : State} {a : Nat} (h : ¬ Readable s a) : s.readMem a = .error (readFault a) := by
  unfold State.readMem readFault
  by_cases ha : a > 0xFFF
  · rw [if_pos ha, if_pos ha]
  · rw [if_neg ha, if_neg ha]
    have : s.peek a = none := by
      by_contra hp
      exact h ⟨by omega, hp⟩
    rw [this]

/-- The first byte that cannot be read is the fault of `readBytes`. -/
theorem State.readBytes_first_fault {s : State} {a n k : Nat} (hk : k < n)
    (h : ∀ j < k, Readable s (a + j)) (hf : ¬ Readable s (a + k)) : s.readBytes a n = .error (readFault (a + k)) := by
  refine readAll_first_error k ?_ fun j hj => ?_
  · simp [List.getElem?_range hk, s.readMem_not_readable hf]
  · obtain ⟨b, hb⟩ := s.readMem_readable (h j hj)
    exact ⟨b, by simp [List.getElem?_range (show j < n by omega), hb]⟩

/-! ### The cells of a sprite (43_display.md R211) -/

/-- The cells a sprite draws are those it covers. -/
theorem spriteCovers_iff {clip : Bool} {cx cy : Nat} {rows : List Byte} {px : Fin 64} {py : Fin 32} :
    SpriteCovers clip cx cy rows px py ↔ (px, py) ∈ spriteCells clip cx cy 0 rows := by
  rw [mem_spriteCells]
  unfold SpriteCovers
  constructor
  · rintro ⟨r, h, b, hb, h1, h2⟩
    refine ⟨r, h, b, hb, h1, pixelCell_some_iff.mpr ?_⟩
    have := px.isLt
    have := py.isLt
    cases clip <;> simp at h2 ⊢ <;> omega
  · rintro ⟨r, h, b, hb, h1, h2⟩
    refine ⟨r, h, b, hb, h1, ?_⟩
    have h3 := pixelCell_some_iff.mp h2
    cases clip <;> simp at h3 ⊢ <;> omega

/-! ### The first key transition (44_input_timers.md R236) -/

theorem allRegs_getElem (k : Nat) (h : k < 16) : allRegs[k]? = some ⟨k, h⟩ := by
  interval_cases k <;> rfl

theorem State.firstTransition_eq_some {s : State} {k : Reg} :
    s.firstTransition = some k ↔ FirstTransition s.keysPrev s.keysCur k := by
  unfold State.firstTransition FirstTransition
  rw [List.find?_eq_some_iff_getElem]
  constructor
  · rintro ⟨h, i, hi, hk, hj⟩
    refine ⟨by simpa using h, fun j hjk => ?_⟩
    obtain rfl : i = k.val := by
      have := allRegs_getElem i hi
      rw [List.getElem?_eq_getElem hi, hk] at this
      exact (Fin.ext_iff.mp (Option.some.inj this)).symm
    have h1 := hj j.val hjk
    have h2 := allRegs_getElem j.val j.isLt
    rw [List.getElem?_eq_getElem (lt_trans hjk hi)] at h2
    rw [Option.some.inj h2] at h1
    simpa using h1
  · rintro ⟨h, hj⟩
    have hl : allRegs.length = 16 := rfl
    refine ⟨by simpa using h, k.val, by omega, ?_, fun j hjk => ?_⟩
    · exact Option.some.inj ((List.getElem?_eq_getElem (by omega)).symm.trans (allRegs_getElem k.val k.isLt))
    · have hj16 : j < 16 := lt_trans hjk k.isLt
      have h2 := allRegs_getElem j hj16
      rw [List.getElem?_eq_getElem (by omega)] at h2
      rw [Option.some.inj h2]
      simpa using hj ⟨j, hj16⟩ hjk

theorem State.firstTransition_eq_none {s : State} :
    s.firstTransition = none ↔ ∀ k : Reg, s.keysCur[k.val] = s.keysPrev[k.val] := by
  unfold State.firstTransition
  rw [List.find?_eq_none]
  have : ∀ k : Reg, k ∈ allRegs := by decide
  exact ⟨fun h k => by simpa using h k (this k), fun h k _ => by simpa using h k⟩

/-- Either some key changed first, or none changed. -/
theorem firstTransition_cases (s : State) :
    (∃ k, s.firstTransition = some k ∧ FirstTransition s.keysPrev s.keysCur k) ∨
    (s.firstTransition = none ∧ ∀ k : Reg, s.keysCur[k.val] = s.keysPrev[k.val]) := by
  cases h : s.firstTransition with
  | some k => exact .inl ⟨k, rfl, State.firstTransition_eq_some.mp h⟩
  | none => exact .inr ⟨rfl, State.firstTransition_eq_none.mp h⟩

end Sys2Proof.Machine
end

