-- ==== Sys2Proof/Laws/Frames.lean ====
section
/-! SUPPORT. All that executing an instruction can do: take a fault, or complete and leave everything but what the
instruction writes. Claims about what instructions leave alone cite `exec_cases` and never unfold a meaning. -/

namespace Sys2Proof.Machine

/-- The registers an instruction may write: its destinations, and `VF` where it writes the flag (10_state.md R21). -/
def writesRegs : Instr → List Reg
  | .orReg x _ | .andReg x _ | .xorReg x _ | .addReg x _ | .subReg x _ | .shr x _ | .subnReg x _ | .shl x _ => [x, VF]
  | .drw _ _ _ | .addI _ => [VF]
  | .ldImm x nn => destRegs (.ldImm x nn)
  | .addImm x nn => destRegs (.addImm x nn)
  | .ldReg x y => destRegs (.ldReg x y)
  | .rnd x nn => destRegs (.rnd x nn)
  | .ldVxDt x => destRegs (.ldVxDt x)
  | .ldVxK x => destRegs (.ldVxK x)
  | .loadRegs x => destRegs (.loadRegs x)
  | .cls | .ret | .jp _ | .call _ | .seImm _ _ | .sneImm _ _ | .seReg _ _ | .sneReg _ _ | .ldI _ | .jpV0 _ _
  | .skp _ | .sknp _ | .ldDtVx _ | .ldStVx _ | .ldF _ | .ldB _ | .storeRegs _ => []

/-- The other parts an instruction may write. -/
def writesParts : Instr → List Part
  | .cls | .drw _ _ _ => [.display]
  | .ret => [.pc, .sp]
  | .call _ => [.pc, .sp, .stack]
  | .jp _ | .jpV0 _ _ | .seImm _ _ | .sneImm _ _ | .seReg _ _ | .sneReg _ _ | .skp _ | .sknp _ => [.pc]
  | .ldI _ | .addI _ | .ldF _ | .loadRegs _ => [.index]
  | .ldDtVx _ => [.dt]
  | .ldStVx _ => [.st]
  | .ldVxK _ => [.mode]
  | .ldB _ => [.memory]
  | .storeRegs _ => [.memory, .index]
  | .ldImm _ _ | .addImm _ _ | .ldReg _ _ | .orReg _ _ | .andReg _ _ | .xorReg _ _ | .addReg _ _ | .subReg _ _
  | .shr _ _ | .subnReg _ _ | .shl _ _ | .rnd _ _ | .ldVxDt _ => []

/-- Executing took a fault: only the record is written. -/
def TookFault (s t : State) : Prop := ∃ r, t = s.takeFault r (s.pc - 2) (some s.op)

/-- All that `orFault` can answer. -/
theorem State.orFault_next {α : Type} {s t : State} {e : Except FaultReason α} {k : α → Result}
    (h : s.orFault e k = .next t) : TookFault s t ∨ ∃ a, e = .ok a ∧ k a = .next t := by
  cases e with
  | ok a => exact .inr ⟨a, rfl, h⟩
  | error r => cases h; exact .inl ⟨r, rfl⟩

/-- A claim about the answer of `orFault` that a fault meets needs proof only where the read succeeds. -/
theorem State.orFault_or {α : Type} {P : Prop} {s t : State} {e : Except FaultReason α} {k : α → Result}
    (h : s.orFault e k = .next t) (hk : ∀ a, e = .ok a → k a = .next t → TookFault s t ∨ P) : TookFault s t ∨ P :=
  (State.orFault_next h).elim .inl fun ⟨a, e, h⟩ => hk a e h

/-- Two states that differ in register contents at most. -/
theorem Frame.of_regs {s t : State} {regs : List Reg}
    (h1 : ∀ r : Reg, r ∉ regs → t.v[r.val] = s.v[r.val] ∧ t.vWritten[r.val] = s.vWritten[r.val])
    (h2 : ∃ v w, t = { s with v := v, vWritten := w }) : Frame regs [] s t := by
  obtain ⟨v, w, rfl⟩ := h2
  exact ⟨h1, fun p _ => by cases p <;> first | exact rfl | exact ⟨rfl, rfl⟩ | (intro _; exact rfl)⟩

/-- More may be allowed to change. -/
theorem Frame.mono {s t : State} {regs regs' : List Reg} {parts parts' : List Part} (h : Frame regs parts s t)
    (h1 : regs ⊆ regs') (h2 : parts ⊆ parts') : Frame regs' parts' s t :=
  ⟨fun r hr => h.1 r fun hm => hr (h1 hm), fun p hp => h.2 p fun hm => hp (h2 hm)⟩

/-- What is unchanged twice is unchanged. -/
theorem Frame.trans {s t u : State} {regs : List Reg} {parts : List Part} (h : Frame regs parts s t)
    (h' : Frame regs parts t u) : Frame regs parts s u := by
  refine ⟨fun r hr => ⟨(h'.1 r hr).1.trans (h.1 r hr).1, (h'.1 r hr).2.trans (h.1 r hr).2⟩, fun p hp => ?_⟩
  have a := h.2 p hp
  have b := h'.2 p hp
  cases p <;> first
    | exact Eq.trans b a
    | exact ⟨b.1.trans a.1, b.2.trans a.2⟩
    | exact fun k => (b k).trans (a k)

theorem frame_writeV (s : State) (x : Reg) (b : Byte) : Frame [x] [] s (s.writeV x b) :=
  .of_regs (writeV_others s x b) ⟨_, _, rfl⟩

theorem frame_writeV_flag (s : State) (x : Reg) (b : Byte) (f : Bool) :
    Frame [x, VF] [] s ((s.writeV x b).writeFlag f) :=
  .of_regs (writeV_writeV_others s x VF b _) ⟨_, _, rfl⟩

theorem frame_logicFlag (s : State) (x : Reg) (b : Byte) : Frame [x, VF] [] s (s.writeV x b).logicFlag := by
  unfold State.logicFlag
  split
  · exact frame_writeV_flag s x b false
  · exact (frame_writeV s x b).mono (by simp) (by simp)

theorem frame_writeVs (s : State) (regs : List Reg) (l : List Byte) : Frame regs [] s (s.writeVs (regs.zip l)) :=
  .of_regs (fun _ hr => s.writeVs_other _ fun _ hc e => hr (e ▸ (List.of_mem_zip hc).1)) (s.writeVs_eq _)

theorem frame_writeI (s : State) (w : Word) : Frame [] [.index] s (s.writeI w) :=
  ⟨fun _ _ => ⟨rfl, rfl⟩, fun p hp => by
    cases p <;> first | (exact absurd (by decide) hp) | exact rfl | exact ⟨rfl, rfl⟩ | (intro _; exact rfl)⟩

theorem frame_advanceI (s : State) (a : Word) (x : Reg) : Frame [] [.index] s (s.advanceI a x) := by
  unfold State.advanceI
  split
  · exact frame_writeI s _
  · exact ⟨fun _ _ => ⟨rfl, rfl⟩, fun p _ => by cases p <;> first | exact rfl | exact ⟨rfl, rfl⟩ | (intro _; exact rfl)⟩

theorem frame_setPc (s : State) (w : Word) : Frame [] [.pc] s (s.setPc w) :=
  ⟨fun _ _ => ⟨rfl, rfl⟩, fun p hp => by
    cases p <;> first | (exact absurd (by decide) hp) | exact rfl | exact ⟨rfl, rfl⟩ | (intro _; exact rfl)⟩

theorem frame_setDt (s : State) (b : Byte) : Frame [] [.dt] s (s.setDt b) :=
  ⟨fun _ _ => ⟨rfl, rfl⟩, fun p hp => by
    cases p <;> first | (exact absurd (by decide) hp) | exact rfl | exact ⟨rfl, rfl⟩ | (intro _; exact rfl)⟩

theorem frame_setSt (s : State) (b : Byte) : Frame [] [.st] s (s.setSt b) :=
  ⟨fun _ _ => ⟨rfl, rfl⟩, fun p hp => by
    cases p <;> first | (exact absurd (by decide) hp) | exact rfl | exact ⟨rfl, rfl⟩ | (intro _; exact rfl)⟩

theorem frame_setMode (s : State) (m : Mode) : Frame [] [.mode] s (s.setMode m) :=
  ⟨fun _ _ => ⟨rfl, rfl⟩, fun p hp => by
    cases p <;> first | (exact absurd (by decide) hp) | exact rfl | exact ⟨rfl, rfl⟩ | (intro _; exact rfl)⟩

theorem frame_setDisplay (s : State) (d : Display) : Frame [] [.display] s (s.setDisplay d) :=
  ⟨fun _ _ => ⟨rfl, rfl⟩, fun p hp => by
    cases p <;> first | (exact absurd (by decide) hp) | exact rfl | exact ⟨rfl, rfl⟩ | (intro _; exact rfl)⟩

theorem frame_pop (s : State) (b : Byte) (w : Word) : Frame [] [.pc, .sp] s ((s.setSp b).setPc w) :=
  ⟨fun _ _ => ⟨rfl, rfl⟩, fun p hp => by
    cases p <;> first | (exact absurd (by decide) hp) | exact rfl | exact ⟨rfl, rfl⟩ | (intro _; exact rfl)⟩

theorem frame_push (s : State) (w a : Word) : Frame [] [.pc, .sp, .stack] s ((s.push w).setPc a) :=
  ⟨fun _ _ => ⟨rfl, rfl⟩, fun p hp => by
    cases p <;> first | (exact absurd (by decide) hp) | exact rfl | exact ⟨rfl, rfl⟩ | (intro _; exact rfl)⟩

theorem frame_storeBytes (s : State) (a : Nat) (l : List Byte) : Frame [] [.memory] s (s.storeBytes a l) := by
  obtain ⟨m, h⟩ := s.storeBytes_eq a l
  rw [h]
  exact ⟨fun _ _ => ⟨rfl, rfl⟩, fun p hp => by
    cases p <;> first | (exact absurd (by decide) hp) | exact rfl | exact ⟨rfl, rfl⟩ | (intro _; exact rfl)⟩

theorem frame_waitBody (s : State) (x : Reg) : Frame [x] [.mode] s (s.waitBody x) := by
  unfold State.waitBody
  split
  · exact ((frame_writeV s x _).mono (List.Subset.refl _) (by simp)).trans ((frame_setMode _ _).mono (by simp) (by simp))
  · exact (frame_setMode s _).mono (by simp) (by simp)

/-! ### Executing an instruction -/

/-- Every instruction answers a next state. -/
theorem exec_next (i : Instr) (s : State) : ∃ t, exec i s = .next t := by
  have one {α : Type} (e : Except FaultReason α) (k : α → Result) (hk : ∀ a, ∃ t, k a = .next t) :
      ∃ t, s.orFault e k = .next t := by
    cases e with
    | ok a => exact hk a
    | error r => exact ⟨_, rfl⟩
  cases i with
  | cls | jp | ldImm | ldI | rnd | ldVxDt | ldVxK => exact ⟨_, rfl⟩
  | ret | call | seImm | sneImm | addImm | ldReg | shr | shl | jpV0 | ldDtVx | ldStVx => exact one _ _ fun _ => ⟨_, rfl⟩
  | seReg | sneReg | orReg | andReg | xorReg | addReg | subReg | subnReg | skp | sknp | addI | ldF | loadRegs =>
    exact one _ _ fun _ => one _ _ fun _ => ⟨_, rfl⟩
  | drw | ldB | storeRegs => exact one _ _ fun _ => one _ _ fun _ => one _ _ fun _ => ⟨_, rfl⟩

/-- All that executing an instruction can do. -/
theorem exec_cases {i : Instr} {s t : State} (h : exec i s = .next t) :
    TookFault s t ∨ Frame (writesRegs i) (writesParts i) s t := by
  cases i with
  | cls => cases h; exact .inr (frame_setDisplay s _)
  | jp => cases h; exact .inr (frame_setPc s _)
  | ldImm | rnd | ldVxDt => cases h; exact .inr (frame_writeV s _ _)
  | ldI => cases h; exact .inr (frame_writeI s _)
  | ldVxK => cases h; exact .inr (frame_waitBody s _)
  | ret => exact State.orFault_or h fun _ _ h => by cases h; exact .inr (frame_pop s _ _)
  | call => exact State.orFault_or h fun _ _ h => by cases h; exact .inr (frame_push s _ _)
  | seImm | sneImm | jpV0 => exact State.orFault_or h fun _ _ h => by cases h; exact .inr (frame_setPc s _)
  | addImm | ldReg => exact State.orFault_or h fun _ _ h => by cases h; exact .inr (frame_writeV s _ _)
  | shr | shl => exact State.orFault_or h fun _ _ h => by cases h; exact .inr (frame_writeV_flag s _ _ _)
  | ldDtVx => exact State.orFault_or h fun _ _ h => by cases h; exact .inr (frame_setDt s _)
  | ldStVx => exact State.orFault_or h fun _ _ h => by cases h; exact .inr (frame_setSt s _)
  | seReg | sneReg | skp | sknp =>
    exact State.orFault_or h fun _ _ h => State.orFault_or h fun _ _ h => by cases h; exact .inr (frame_setPc s _)
  | orReg | andReg | xorReg =>
    exact State.orFault_or h fun _ _ h => State.orFault_or h fun _ _ h => by cases h; exact .inr (frame_logicFlag s _ _)
  | addReg | subReg | subnReg =>
    exact State.orFault_or h fun _ _ h => State.orFault_or h fun _ _ h => by
      cases h; exact .inr (frame_writeV_flag s _ _ _)
  | addI =>
    exact State.orFault_or h fun _ _ h => State.orFault_or h fun _ _ h => by
      cases h
      exact .inr (((frame_writeI s _).mono (by simp) (List.Subset.refl _)).trans
        ((frame_writeV _ VF _).mono (List.Subset.refl _) (by simp)))
  | ldF => exact State.orFault_or h fun _ _ h => State.orFault_or h fun _ _ h => by cases h; exact .inr (frame_writeI s _)
  | drw =>
    exact State.orFault_or h fun _ _ h => State.orFault_or h fun _ _ h => State.orFault_or h fun _ _ h => by
      cases h
      exact .inr (((frame_setDisplay s _).mono (by simp) (List.Subset.refl _)).trans
        ((frame_writeV _ VF _).mono (List.Subset.refl _) (by simp)))
  | ldB =>
    exact State.orFault_or h fun _ _ h => State.orFault_or h fun _ _ h => State.orFault_or h fun _ _ h => by
      cases h; exact .inr (frame_storeBytes s _ _)
  | storeRegs =>
    exact State.orFault_or h fun _ _ h => State.orFault_or h fun _ _ h => State.orFault_or h fun _ _ h => by
      cases h
      exact .inr (((frame_storeBytes s _ _).mono (by simp) (by simp [writesParts])).trans
        ((frame_advanceI _ _ _).mono (by simp) (by simp [writesParts])))
  | loadRegs x =>
    exact State.orFault_or h fun _ _ h => State.orFault_or h fun _ _ h => by
      cases h
      exact .inr (((frame_writeVs s (regsUpTo x) _).mono (List.Subset.refl _) (by simp)).trans
        ((frame_advanceI _ _ _).mono (by simp) (List.Subset.refl _)))

/-! ### The lists of the state -/

theorem waitBody_mem (s : State) (x : Reg) : (s.waitBody x).mem = s.mem := by unfold State.waitBody; split <;> rfl

theorem waitBody_stack (s : State) (x : Reg) : (s.waitBody x).stack = s.stack := by unfold State.waitBody; split <;> rfl

theorem logicFlag_mem (s : State) : s.logicFlag.mem = s.mem := by unfold State.logicFlag; split <;> rfl

theorem logicFlag_stack (s : State) : s.logicFlag.stack = s.stack := by unfold State.logicFlag; split <;> rfl

theorem advanceI_mem (s : State) (a : Word) (x : Reg) : (s.advanceI a x).mem = s.mem := by
  unfold State.advanceI; split <;> rfl

theorem advanceI_stack (s : State) (a : Word) (x : Reg) : (s.advanceI a x).stack = s.stack := by
  unfold State.advanceI; split <;> rfl

theorem writeVs_mem_stack (s : State) (l : List (Reg × Byte)) :
    (s.writeVs l).mem = s.mem ∧ (s.writeVs l).stack = s.stack := by
  obtain ⟨v, w, h⟩ := s.writeVs_eq l
  rw [h]; exact ⟨rfl, rfl⟩

theorem storeBytes_stack (s : State) (a : Nat) (l : List Byte) : (s.storeBytes a l).stack = s.stack := by
  obtain ⟨m, h⟩ := s.storeBytes_eq a l
  rw [h]; rfl

/-- The lists of memory and stack are the same but where an instruction writes them, or it took a fault. -/
theorem exec_lists {i : Instr} {s t : State} (h : exec i s = .next t) :
    (Part.memory ∉ writesParts i → t.mem = s.mem) ∧ (Part.stack ∉ writesParts i → t.stack = s.stack) := by
  have fin {P : Prop} (hp : TookFault s t ∨ P)
      (hP : P → (Part.memory ∉ writesParts i → t.mem = s.mem) ∧ (Part.stack ∉ writesParts i → t.stack = s.stack)) :
      (Part.memory ∉ writesParts i → t.mem = s.mem) ∧ (Part.stack ∉ writesParts i → t.stack = s.stack) := by
    rcases hp with ⟨r, rfl⟩ | h
    · exact ⟨fun _ => rfl, fun _ => rfl⟩
    · exact hP h
  cases i with
  | cls | jp | ldImm | rnd | ldVxDt | ldI => cases h; exact ⟨fun _ => rfl, fun _ => rfl⟩
  | ldVxK => cases h; exact ⟨fun _ => waitBody_mem .., fun _ => waitBody_stack ..⟩
  | ret | seImm | sneImm | jpV0 | addImm | ldReg | shr | shl | ldDtVx | ldStVx =>
    exact fin (State.orFault_next h) fun ⟨_, _, h⟩ => by cases h; exact ⟨fun _ => rfl, fun _ => rfl⟩
  | call =>
    exact fin (State.orFault_next h) fun ⟨_, _, h⟩ => by
      cases h; exact ⟨fun _ => rfl, fun hn => absurd (by simp [writesParts]) hn⟩
  | seReg | sneReg | skp | sknp | addReg | subReg | subnReg | addI | ldF =>
    exact fin (State.orFault_next h) fun ⟨_, _, h⟩ => fin (State.orFault_next h) fun ⟨_, _, h⟩ => by
      cases h; exact ⟨fun _ => rfl, fun _ => rfl⟩
  | orReg | andReg | xorReg =>
    exact fin (State.orFault_next h) fun ⟨_, _, h⟩ => fin (State.orFault_next h) fun ⟨_, _, h⟩ => by
      cases h; exact ⟨fun _ => logicFlag_mem _, fun _ => logicFlag_stack _⟩
  | loadRegs =>
    exact fin (State.orFault_next h) fun ⟨_, _, h⟩ => fin (State.orFault_next h) fun ⟨_, _, h⟩ => by
      cases h
      exact ⟨fun _ => (advanceI_mem ..).trans (writeVs_mem_stack ..).1,
        fun _ => (advanceI_stack ..).trans (writeVs_mem_stack ..).2⟩
  | drw =>
    exact fin (State.orFault_next h) fun ⟨_, _, h⟩ => fin (State.orFault_next h) fun ⟨_, _, h⟩ =>
      fin (State.orFault_next h) fun ⟨_, _, h⟩ => by cases h; exact ⟨fun _ => rfl, fun _ => rfl⟩
  | ldB =>
    exact fin (State.orFault_next h) fun ⟨_, _, h⟩ => fin (State.orFault_next h) fun ⟨_, _, h⟩ =>
      fin (State.orFault_next h) fun ⟨_, _, h⟩ => by
        cases h; exact ⟨fun hn => absurd (by simp [writesParts]) hn, fun _ => storeBytes_stack ..⟩
  | storeRegs =>
    exact fin (State.orFault_next h) fun ⟨_, _, h⟩ => fin (State.orFault_next h) fun ⟨_, _, h⟩ =>
      fin (State.orFault_next h) fun ⟨_, _, h⟩ => by
        cases h
        exact ⟨fun hn => absurd (by simp [writesParts]) hn,
          fun _ => (advanceI_stack ..).trans (storeBytes_stack ..)⟩

/-- A register write leaves a set written mark set (10_state.md R35). -/
theorem writeV_keeps_mark {s : State} {r : Reg} (x : Reg) (b : Byte) (h : s.vWritten[r.val] = true) :
    (s.writeV x b).vWritten[r.val] = true := by
  by_cases hx : r = x
  · subst hx; exact s.writeV_vWritten_self r b
  · rw [s.writeV_vWritten_other b hx]; exact h

theorem writeVs_keeps_mark {s : State} {r : Reg} (l : List (Reg × Byte)) (h : s.vWritten[r.val] = true) :
    (s.writeVs l).vWritten[r.val] = true := by
  induction l generalizing s with
  | nil => exact h
  | cons c l ih => exact ih (writeV_keeps_mark c.1 c.2 h)

end Sys2Proof.Machine
end

