-- ==== Sys2Proof/Laws/PerInstr.lean ====
section
/-! SUPPORT. One lemma per instruction: its word lies in its own row of spec/opcode_table.json. -/

namespace Sys2Proof.Laws.EncodesInItsRow

/-- The row's (match, mask) of the opcode table, copied from the table. -/
def row : Instr → Word × Word
  | .cls => (0x00E0, 0xFFFF)
  | .ret => (0x00EE, 0xFFFF)
  | .jp _ => (0x1000, 0xF000)
  | .call _ => (0x2000, 0xF000)
  | .seImm _ _ => (0x3000, 0xF000)
  | .sneImm _ _ => (0x4000, 0xF000)
  | .seReg _ _ => (0x5000, 0xF00F)
  | .ldImm _ _ => (0x6000, 0xF000)
  | .addImm _ _ => (0x7000, 0xF000)
  | .ldReg _ _ => (0x8000, 0xF00F)
  | .orReg _ _ => (0x8001, 0xF00F)
  | .andReg _ _ => (0x8002, 0xF00F)
  | .xorReg _ _ => (0x8003, 0xF00F)
  | .addReg _ _ => (0x8004, 0xF00F)
  | .subReg _ _ => (0x8005, 0xF00F)
  | .shr _ _ => (0x8006, 0xF00F)
  | .subnReg _ _ => (0x8007, 0xF00F)
  | .shl _ _ => (0x800E, 0xF00F)
  | .sneReg _ _ => (0x9000, 0xF00F)
  | .ldI _ => (0xA000, 0xF000)
  | .jpV0 _ _ => (0xB000, 0xF000)
  | .rnd _ _ => (0xC000, 0xF000)
  | .drw _ _ _ => (0xD000, 0xF000)
  | .skp _ => (0xE09E, 0xF0FF)
  | .sknp _ => (0xE0A1, 0xF0FF)
  | .ldVxDt _ => (0xF007, 0xF0FF)
  | .ldVxK _ => (0xF00A, 0xF0FF)
  | .ldDtVx _ => (0xF015, 0xF0FF)
  | .ldStVx _ => (0xF018, 0xF0FF)
  | .addI _ => (0xF01E, 0xF0FF)
  | .ldF _ => (0xF029, 0xF0FF)
  | .ldB _ => (0xF033, 0xF0FF)
  | .storeRegs _ => (0xF055, 0xF0FF)
  | .loadRegs _ => (0xF065, 0xF0FF)

/-- The encoder's word agrees with the table on the row's fixed bits. -/
def Statement (i : Instr) : Prop := encodeWord i &&& (row i).2 = (row i).1

theorem cls : Statement .cls := rfl
theorem ret : Statement .ret := rfl
theorem jp (nnn : Addr) : Statement (.jp nnn) := wordNNN_family ..
theorem call (nnn : Addr) : Statement (.call nnn) := wordNNN_family ..
theorem seImm (x : Reg) (nn : Byte) : Statement (.seImm x nn) := wordX_family ..
theorem sneImm (x : Reg) (nn : Byte) : Statement (.sneImm x nn) := wordX_family ..
theorem seReg (x : Reg) (y : Reg) : Statement (.seReg x y) := wordXY_key ..
theorem ldImm (x : Reg) (nn : Byte) : Statement (.ldImm x nn) := wordX_family ..
theorem addImm (x : Reg) (nn : Byte) : Statement (.addImm x nn) := wordX_family ..
theorem ldReg (x : Reg) (y : Reg) : Statement (.ldReg x y) := wordXY_key ..
theorem orReg (x : Reg) (y : Reg) : Statement (.orReg x y) := wordXY_key ..
theorem andReg (x : Reg) (y : Reg) : Statement (.andReg x y) := wordXY_key ..
theorem xorReg (x : Reg) (y : Reg) : Statement (.xorReg x y) := wordXY_key ..
theorem addReg (x : Reg) (y : Reg) : Statement (.addReg x y) := wordXY_key ..
theorem subReg (x : Reg) (y : Reg) : Statement (.subReg x y) := wordXY_key ..
theorem shr (x : Reg) (y : Reg) : Statement (.shr x y) := wordXY_key ..
theorem subnReg (x : Reg) (y : Reg) : Statement (.subnReg x y) := wordXY_key ..
theorem shl (x : Reg) (y : Reg) : Statement (.shl x y) := wordXY_key ..
theorem sneReg (x : Reg) (y : Reg) : Statement (.sneReg x y) := wordXY_key ..
theorem ldI (nnn : Addr) : Statement (.ldI nnn) := wordNNN_family ..
theorem jpV0 (x : Reg) (nnn : Addr) : Statement (.jpV0 x nnn) := wordNNN_family ..
theorem rnd (x : Reg) (nn : Byte) : Statement (.rnd x nn) := wordX_family ..
theorem drw (x : Reg) (y : Reg) (n : Nibble) : Statement (.drw x y n) := wordXY_family ..
theorem skp (x : Reg) : Statement (.skp x) := wordX_key ..
theorem sknp (x : Reg) : Statement (.sknp x) := wordX_key ..
theorem ldVxDt (x : Reg) : Statement (.ldVxDt x) := wordX_key ..
theorem ldVxK (x : Reg) : Statement (.ldVxK x) := wordX_key ..
theorem ldDtVx (x : Reg) : Statement (.ldDtVx x) := wordX_key ..
theorem ldStVx (x : Reg) : Statement (.ldStVx x) := wordX_key ..
theorem addI (x : Reg) : Statement (.addI x) := wordX_key ..
theorem ldF (x : Reg) : Statement (.ldF x) := wordX_key ..
theorem ldB (x : Reg) : Statement (.ldB x) := wordX_key ..
theorem storeRegs (x : Reg) : Statement (.storeRegs x) := wordX_key ..
theorem loadRegs (x : Reg) : Statement (.loadRegs x) := wordX_key ..

end Sys2Proof.Laws.EncodesInItsRow
end

