-- ==== Sys2Proof/Tests/Slice0.lean ====
section
/-! SUPPORT. Tests: ill-formed terms, words written out from the encodings, one step per vector of 95_test_vectors.md
(named by its number), and for every obligation with hypotheses a witness that meets them. -/

namespace Sys2Proof.Tests

open Sys2Proof Sys2Proof.Machine

/-! ### Small states -/

def params (q : Quirks) : Params := { Config.params with quirks := q, fontBase := 0x050 }

def keys (l : List Reg) : Vector Byte 16 := l.foldl (fun k r => k.set r.val 1) (Vector.replicate 16 0)

def held (l : List Reg) : Vector Bool 16 := l.foldl (fun k r => k.set r.val true) (Vector.replicate 16 false)

def idle : StepInput := { keys := keys [], tick := false, rnd := 0 }

def ticking : StepInput := { keys := keys [], tick := true, rnd := 0 }

/-- The block of 95_test_vectors.md's conventions: `w` at 0x300, `pc` there, idle inputs, nothing else written. -/
def start (q : Quirks) (w : Word) : State :=
  State.storeBytes { State.constructed (params q) with pc := 0x300, inputs := [idle] } 0x300 [opHi w, opLo w]

/-- The answer's state, viewed. -/
def view {α : Type} (f : State → α) : Result → Option α
  | .next t => some (f t)
  | .fault _ => none
  | .refused _ => none

def isNext (r : Result) : Bool := (view (fun _ => ()) r).isSome

/-- The value of a written register. -/
def reg (x : Reg) (s : State) : Option Byte := if s.vWritten[x.val] then some s.v[x.val] else none

def reason (s : State) : Option FaultReason := s.fault.map fun f => f.reason

/-! ### WellFormed -/

theorem test_wellFormed_refuses_jpV0 : (Instr.jpV0 3 0x2F0).wellFormed = false := by decide
theorem test_wellFormed_accepts_jpV0 : (Instr.jpV0 2 0x2F0).wellFormed = true := by decide

/-! ### Decode: a word of every row, its bits written out from the encodings of 41 to 45 -/

theorem test_decode_family_0 :
    decodeWord 0b0000000011100000#16 = some .cls ∧ decodeWord 0b0000000011101110#16 = some .ret := by decide
theorem test_decode_jumps :
    decodeWord 0b0001001000110100#16 = some (.jp 0x234) ∧ decodeWord 0b0010001000010000#16 = some (.call 0x210) ∧
    decodeWord 0b1011001011110000#16 = some (.jpV0 2 0x2F0) := by decide
theorem test_decode_skips :
    decodeWord 0b0011001000010000#16 = some (.seImm 2 0x10) ∧ decodeWord 0b0100001000010000#16 = some (.sneImm 2 0x10) ∧
    decodeWord 0b0101000100100000#16 = some (.seReg 1 2) ∧ decodeWord 0b1001000100100000#16 = some (.sneReg 1 2) := by
  decide
theorem test_decode_immediates :
    decodeWord 0b0110000000000101#16 = some (.ldImm 0 0x05) ∧ decodeWord 0b0111000000000011#16 = some (.addImm 0 0x03) ∧
    decodeWord 0b1010001011110000#16 = some (.ldI 0x2F0) ∧ decodeWord 0b1100001100001111#16 = some (.rnd 3 0x0F) := by
  decide
theorem test_decode_family_8 :
    decodeWord 0b1000000100110000#16 = some (.ldReg 1 3) ∧ decodeWord 0b1000000000010001#16 = some (.orReg 0 1) ∧
    decodeWord 0b1000000000010010#16 = some (.andReg 0 1) ∧ decodeWord 0b1000000000010011#16 = some (.xorReg 0 1) ∧
    decodeWord 0b1000101010110100#16 = some (.addReg 0xA 0xB) ∧ decodeWord 0b1000000000010101#16 = some (.subReg 0 1) ∧
    decodeWord 0b1000000000010110#16 = some (.shr 0 1) ∧ decodeWord 0b1000000000010111#16 = some (.subnReg 0 1) ∧
    decodeWord 0b1000000000011110#16 = some (.shl 0 1) := by decide
theorem test_decode_draw_and_keys :
    decodeWord 0b1101000100100011#16 = some (.drw 1 2 3) ∧ decodeWord 0b1110000110011110#16 = some (.skp 1) ∧
    decodeWord 0b1110000110100001#16 = some (.sknp 1) := by decide
theorem test_decode_family_F :
    decodeWord 0b1111010100000111#16 = some (.ldVxDt 5) ∧ decodeWord 0b1111010000001010#16 = some (.ldVxK 4) ∧
    decodeWord 0b1111001000010101#16 = some (.ldDtVx 2) ∧ decodeWord 0b1111001000011000#16 = some (.ldStVx 2) ∧
    decodeWord 0b1111001000011110#16 = some (.addI 2) ∧ decodeWord 0b1111000000101001#16 = some (.ldF 0) ∧
    decodeWord 0b1111000000110011#16 = some (.ldB 0) ∧ decodeWord 0b1111001001010101#16 = some (.storeRegs 2) ∧
    decodeWord 0b1111001001100101#16 = some (.loadRegs 2) := by decide
theorem test_decode_T1_to_T12 :
    [0x0000, 0x0123, 0x00E1, 0x00FF, 0x5121, 0x8008, 0x800F, 0x9121, 0xE19F, 0xF000, 0xF130, 0xF175].map decodeWord
      = List.replicate 12 none := by decide
theorem test_decode_bytes_big_endian : decode [0x12, 0x34, 0x56] = .ok (.jp 0x234, [0x56]) := by decide
theorem test_decode_truncated : decode [0x12] = .error .truncated ∧ decode [] = .error .truncated := by decide
theorem test_decodeTableWord : decodeTableWord 16 0xF065 = some (.loadRegs 0) ∧ decodeTableWord 16 0x00E1 = none := by
  decide
theorem test_withFetchWord_runs_first :
    view (fun t => (reg 1 t, t.pc)) (step (State.reset.withFetchWord 16 0x6105)) = some (some 5, 0x202) := by decide

/-! ### The engine (40_engine_cycle.md; T20 to T28, T180) -/

theorem test_T20_fetch_out_of_range :
    view reason (step ((start 0 0x0000).setPc 0xFFF)) = some (some (.fetchOutOfRange 0xFFF)) := by decide
theorem test_T21_last_fetch :
    view (fun t => (reg 0 t, t.pc)) (step (((start 0 0).setPc 0xFFE).storeBytes 0xFFE [0x60, 0x01]))
      = some (some 1, 0x1000) := by decide
theorem test_T23_second_byte_unwritten :
    view (fun t => t.fault) (step { (start 0 0) with mem := [(0x300, 0x60)] })
      = some (some ⟨.uninitializedRead (.mem 0x301), 0x300, none⟩) := by decide
theorem test_T24_odd_pc :
    view (fun t => (reg 0 t, t.pc)) (step (((start 0 0).setPc 0x301).storeBytes 0x301 [0x60, 0x05]))
      = some (some 5, 0x303) := by decide
theorem test_T25_fault_rolls_back :
    view (fun t => (t.fault, t.keysCur, t.keysPrev, t.dt, t.pc))
      (step { start 0 0x0000 with dt := 5, keysCur := held [7], inputs := [⟨keys [2], true, 0⟩] })
      = some (some ⟨.unimplemented 0x0000, 0x300, some 0x0000⟩, held [7], held [], 5, 0x300) := by decide
theorem test_T26_faulted_is_stuck :
    isNext (step ((start 0 0x6000).setFault (some ⟨.unimplemented 0, 0x300, some 0⟩))) = false := by decide
theorem test_T27_any_nonzero_key_is_pressed :
    view (fun t => t.keysCur) (step { start 0 0x6000 with inputs := [⟨(keys []).set 3 0x80, false, 0⟩] })
      = some (held [3]) := by decide
theorem test_T28_waiting_fetches_nothing :
    view (fun t => (t.dt, t.mode, t.pc, t.fault))
      (step { start 0 0xF40A with mode := .waitingForKey, op := 0xF40A, pc := 0x500, dt := 2, inputs := [ticking] })
      = some (1, .waitingForKey, 0x500, none) := by decide
theorem test_T180_no_program :
    view reason (step (State.constructed (params 0))) = some (some (.uninitializedRead (.mem 0x200))) := by decide
theorem test_font_read_back :
    [0x04F, 0x050, 0x055, 0x073, 0x09F, 0x0A0].map (State.constructed (params 0)).peek
      = [none, some 0xF0, some 0x20, some 0xF0, some 0x80, none] := by decide

/-! ### Control transfer (41_control_flow.md; T30 to T52) -/

theorem test_T30_ret : view (fun t => (t.pc, t.sp, t.stackEntry 0)) (step ((start 0 0x00EE).push 0x206))
    = some (0x206, 0, 0x206) := by decide
theorem test_T31_ret_empty : view reason (step (start 0 0x00EE)) = some (some (.stackUnderflow 0)) := by decide
theorem test_T32_jp : view (fun t => t.pc) (step (start 0 0x1234)) = some 0x234 := by decide
theorem test_T35_call : view (fun t => (t.pc, t.sp, t.stackEntry 254)) (step ((start 0 0x2400).setSp 254))
    = some (0x400, 255, 0x302) := by decide
theorem test_T36_call_full : view reason (step ((start 0 0x2210).setSp 255)) = some (some (.stackOverflow 255)) := by
  decide
theorem test_T37_seImm : view (fun t => t.pc) (step ((start 0 0x3210).writeV 2 0x10)) = some 0x304 := by decide
theorem test_T38_seImm : view (fun t => t.pc) (step ((start 0 0x3210).writeV 2 0x11)) = some 0x302 := by decide
theorem test_T40_sneImm : view (fun t => t.pc) (step ((start 0 0x4210).writeV 2 0x11)) = some 0x304 := by decide
theorem test_T41_sneImm : view (fun t => t.pc) (step ((start 0 0x4210).writeV 2 0x10)) = some 0x302 := by decide
theorem test_T43_seReg : view (fun t => t.pc) (step ((start 0 0x5120).writeVs [(1, 7), (2, 8)])) = some 0x302 := by
  decide
theorem test_T44_seReg_unwritten :
    view reason (step ((start 0 0x5120).writeV 1 7)) = some (some (.uninitializedRead (.v 2))) := by decide
theorem test_T46_sneReg : view (fun t => t.pc) (step ((start 0 0x9120).writeVs [(1, 7), (2, 8)])) = some 0x304 := by
  decide
theorem test_T50_jpV0_by_x :
    view (fun t => t.pc) (step ((start Config.schip 0xB2F0).writeVs [(0, 1), (2, 0x20)])) = some 0x310 := by decide
theorem test_T51_jpV0_not_reduced :
    view (fun t => t.pc) (step ((start Config.original 0xBFFF).writeV 0 0xFF)) = some 0x10FE := by decide

/-! ### Registers and arithmetic (42_register_alu.md; T60 to T92) -/

theorem test_T61_ldImm_VF : view (reg 15) (step (start 0 0x6FAA)) = some (some 0xAA) := by decide
theorem test_T62_addImm_no_flag : view (fun t => (reg 0 t, reg 15 t))
    (step ((start 0 0x7001).writeVs [(0, 0xFF), (15, 0x55)])) = some (some 0, some 0x55) := by decide
theorem test_T63_addImm_unwritten : view reason (step (start 0 0x7001)) = some (some (.uninitializedRead (.v 0))) := by
  decide
theorem test_T64_ldReg : view (reg 1) (step ((start 0 0x8130).writeV 3 0x2A)) = some (some 0x2A) := by decide
theorem test_T67_or_original : view (fun t => (reg 0 t, reg 15 t))
    (step ((start Config.original 0x8011).writeVs [(0, 0x0F), (1, 0xF0), (15, 7)])) = some (some 0xFF, some 0) := by
  decide
theorem test_T71_or_VF_schip : view (reg 15) (step ((start Config.schip 0x8F01).writeVs [(15, 0x10), (0, 1)]))
    = some (some 0x11) := by decide
theorem test_T68_and : view (fun t => (reg 0 t, reg 15 t))
    (step ((start Config.original 0x8012).writeVs [(0, 0x3C), (1, 0x0F), (15, 7)])) = some (some 0x0C, some 0) := by
  decide
theorem test_T69_xor : view (fun t => (reg 0 t, reg 15 t))
    (step ((start Config.original 0x8013).writeVs [(0, 0x3C), (1, 0x0F)])) = some (some 0x33, some 0) := by decide
theorem test_T70_xor_schip : view (fun t => (reg 2 t, reg 15 t))
    (step ((start Config.schip 0x8223).writeVs [(2, 0x5A), (15, 9)])) = some (some 0, some 9) := by decide
theorem test_T75_add_into_VF : view (reg 15) (step ((start 0 0x8F04).writeVs [(15, 0xFF), (0, 1)]))
    = some (some 1) := by decide
theorem test_T76_add_old_VF : view (fun t => (reg 0 t, reg 15 t))
    (step ((start 0 0x80F4).writeVs [(0, 0x10), (15, 1)])) = some (some 0x11, some 0) := by decide
theorem test_T77_sub : view (fun t => (reg 0 t, reg 15 t))
    (step ((start 0 0x8015).writeVs [(0, 0x10), (1, 0x20)])) = some (some 0xF0, some 0) := by decide
theorem test_T78_sub_equal : view (fun t => (reg 0 t, reg 15 t))
    (step ((start 0 0x8015).writeVs [(0, 0x20), (1, 0x20)])) = some (some 0, some 0) := by decide
theorem test_T81_subn : view (fun t => (reg 0 t, reg 15 t))
    (step ((start 0 0x8017).writeVs [(0, 0x10), (1, 0x30)])) = some (some 0x20, some 1) := by decide
theorem test_T83_subn_borrow : view (fun t => (reg 0 t, reg 15 t))
    (step ((start 0 0x8017).writeVs [(0, 0x30), (1, 0x10)])) = some (some 0xE0, some 0) := by decide
theorem test_T84_shr_original : view (fun t => (reg 0 t, reg 15 t))
    (step ((start Config.original 0x8016).writeVs [(0, 5), (1, 0x0C)])) = some (some 6, some 0) := by decide
theorem test_T84s_shr_schip : view (fun t => (reg 0 t, reg 15 t))
    (step ((start Config.schip 0x8016).writeVs [(0, 5), (1, 0x0C)])) = some (some 2, some 1) := by decide
theorem test_T85_shl_original : view (fun t => (reg 0 t, reg 15 t))
    (step ((start Config.original 0x801E).writeVs [(0, 0x81), (1, 0x40)])) = some (some 0x80, some 0) := by decide
theorem test_T88_shl_VF : view (reg 15) (step ((start Config.schip 0x8FFE).writeV 15 0x80)) = some (some 1) := by decide
theorem test_T90_ldI : view (fun t => (t.index, t.indexWritten)) (step (start 0 0xA2F0)) = some (0x02F0, true) := by
  decide
theorem test_T91_rnd : view (reg 3) (step { start 0 0xC30F with inputs := [⟨keys [], false, 0xB7⟩] })
    = some (some 7) := by decide

/-! ### Display (43_display.md; T100 to T109) -/

/-- The columns set in a row. -/
def columns (row : Fin 32) (s : State) : List Nat :=
  (List.finRange 64).filterMap fun px => if s.display.cell px row then some px.val else none

theorem test_T100_cls : view (fun t => (columns 0 t, columns 31 t, reg 15 t))
    (step ((start 0 0x00E0).setDisplay ((Display.blank.toggle 0 0).toggle 63 31))) = some ([], [], none) := by decide
theorem test_T101_drw_glyph_0 : view (fun t => (columns 0 t, columns 3 t, columns 4 t, columns 5 t, reg 15 t))
    (step (((start 0 0xD005).writeV 0 0).writeI 0x050))
      = some ([0, 1, 2, 3], [0, 3], [0, 1, 2, 3], [], some 0) := by decide
theorem test_T105x_drw_wraps : view (fun t => (columns 31 t, columns 0 t, columns 1 t, reg 15 t))
    (step ((((start Config.xochip 0xD012).writeVs [(0, 0x3F), (1, 0x1F)]).writeI 0x400).storeBytes 0x400 [0xC0, 0xC0]))
      = some ([0, 63], [0, 63], [], some 0) := by decide

/-! ### Keys and timers (44_input_timers.md; T120 to T139) -/

theorem test_T120_skp : view (fun t => t.pc)
    (step { (start 0 0xE19E).writeV 1 0x0A with inputs := [⟨keys [10], false, 0⟩] }) = some 0x304 := by decide
theorem test_T122_skp_this_step : view (fun t => t.pc)
    (step { (start 0 0xE19E).writeV 1 0x0A with keysCur := held [10] }) = some 0x302 := by decide
theorem test_T123_sknp : view (fun t => t.pc) (step ((start 0 0xE1A1).writeV 1 0x0A)) = some 0x304 := by decide
theorem test_T125_key_index : view reason (step ((start 0 0xE1A1).writeV 1 0x10))
    = some (some (.keyIndexOutOfRange 0x10)) := by decide
theorem test_T127_ldVxDt : view (fun t => (reg 5 t, t.dt))
    (step { start 0 0xF507 with dt := 0x3C, inputs := [ticking] }) = some (some 0x3C, 0x3B) := by decide
theorem test_T130t_ldDtVx : view (fun t => t.dt)
    (step { (start 0 0xF215).writeV 2 5 with inputs := [ticking] }) = some 4 := by decide
theorem test_T131_ldStVx : view (fun t => (t.st, t.dt))
    (step { (start 0 0xF218).writeV 2 0x10 with inputs := [ticking] }) = some (0x0F, 0) := by decide
theorem test_T136_press_first : view (fun t => (reg 4 t, t.mode, t.pc))
    (step { start 0 0xF40A with keysCur := held [5], inputs := [⟨keys [2], false, 0⟩] })
      = some (some 2, .waitingForKey, 0x302) := by decide
theorem test_T137_release_first : view (fun t => (reg 4 t, t.mode))
    (step { start 0 0xF40A with keysCur := held [2], inputs := [⟨keys [5], false, 0⟩] })
      = some (some 2, .ready) := by decide

/-! ### Index and memory (45_index_memory.md; T150 to T173) -/

theorem test_T152_addI : view (fun t => (t.index, reg 15 t)) (step (((start 0 0xF21E).writeV 2 1).writeI 0x0FFF))
    = some (0x1000, some 1) := by decide
theorem test_T154_addI_VF : view (fun t => (t.index, reg 15 t)) (step (((start 0 0xFF1E).writeV 15 5).writeI 0x0100))
    = some (0x0105, some 0) := by decide
theorem test_T157_ldF : view (fun t => t.index) (step (((start 0 0xF029).writeV 0 0x1A).writeI 0x050)) = some 0x082 := by
  decide
theorem test_T159a_ldB : view (fun t => ([0x400, 0x401, 0x402].map t.peek, t.index))
    (step (((start 0 0xF033).writeV 0 0xFE).writeI 0x400)) = some ([some 2, some 5, some 4], 0x400) := by decide
theorem test_T160_ldB_no_partial : view (fun t => (reason t, t.peek 0xFFE))
    (step (((start 0 0xF033).writeV 0 1).writeI 0xFFE)) = some (some (.memOutOfRange 0x1000), none) := by decide
theorem test_T161_storeRegs : view (fun t => ([0x400, 0x401, 0x402, 0x403].map t.peek, t.index))
    (step (((start Config.original 0xF255).writeVs [(0, 1), (1, 2), (2, 3)]).writeI 0x400))
      = some ([some 1, some 2, some 3, none], 0x403) := by decide
theorem test_T172_storeRegs_order : view reason (step (((start 0 0xF255).writeVs [(0, 1), (2, 3)]).writeI 0xFFE))
    = some (some (.memOutOfRange 0x1000)) := by decide
theorem test_T166s_loadRegs : view (fun t => (reg 0 t, reg 1 t, reg 2 t, reg 3 t, t.index))
    (step (((start Config.schip 0xF265).writeI 0x400).storeBytes 0x400 [2, 5, 4]))
      = some (some 2, some 5, some 4, none, 0x400) := by decide
theorem test_T173_loadRegs_order : view reason (step ((start 0 0xF265).writeI 0xFFE))
    = some (some (.uninitializedRead (.mem 0xFFE))) := by decide
theorem test_fault_codes : ([.unimplemented 0, .stackOverflow 255, .stackUnderflow 0, .memOutOfRange 0x1000,
    .fetchOutOfRange 0xFFF, .keyIndexOutOfRange 16, .uninitializedRead .index] : List FaultReason).map FaultReason.code
      = [1, 2, 3, 4, 5, 6, 7] := by decide

/-! ### Witnesses: states and operands that meet the hypotheses of each obligation, clause by clause -/

/-- Every register written (`V[i]` is 16 times `i`), `I` = 0x400 and the 16 bytes there written, inside an execution. -/
def full (q : Quirks) : State :=
  ((({ start q 0x6000 with pc := 0x302, op := 0x6000 }.writeVs (allRegs.map fun r => (r, BitVec.ofNat 8 (16 * r.val)))
    ).writeI 0x400).storeBytes 0x400 [0x80, 1, 2, 3, 4, 5, 6, 7, 8, 9, 10, 11, 12, 13, 14, 15])

/-- Nothing written, inside an execution. -/
def blank (q : Quirks) : State := { start q 0x6000 with pc := 0x302, op := 0x6000 }

/-- Executing answers a next state with no fault. -/
def completes (i : Instr) (s : State) : Bool := view (fun t => t.fault) (exec i s) == some none

theorem witness_DecodeOfEncodeIsIdentity : (Instr.jpV0 15 0xFFF).wellFormed = true ∧
    decode (encode (.jpV0 15 0xFFF) ++ [0x12]) = .ok (.jpV0 15 0xFFF, [0x12]) := by decide
theorem witness_EncodeOfDecodeIsIdentity : decodeWord 0xBFFF = some (.jpV0 15 0xFFF) := by decide
theorem witness_UnimplementedWordsAreTheTable :
    [0x0000, 0x00DF, 0x00E1, 0x00ED, 0x00EF, 0x5001, 0x8008, 0x800D, 0x800F, 0x9001, 0xE09D, 0xE0A2, 0xF066].map decodeWord
      = List.replicate 13 none ∧
    (([0x00E0, 0x00EE, 0x5000, 0x8007, 0x800E, 0x9000, 0xE09E, 0xE0A1, 0xF065].map decodeWord).all Option.isSome)
      = true := by decide
theorem witness_ConstructionLeavesTheResetValues :
    [0, 79, 80].map (State.constructed { params 0 with fontBase := 0 }).peek = [some 0xF0, some 0x80, none] ∧
    [431, 432, 511, 512].map (State.constructed { params 0 with fontBase := 432 }).peek
      = [none, some 0xF0, some 0x80, none] := by decide
theorem witness_LoadWritesTheProgram : (List.replicate 3584 (0 : Byte)).length ≤ 3584 ∧
    [0x1FF, 0x200, 0x201, 0x202].map ((State.constructed (params 0)).load [0x60, 0x05]).peek
      = [none, some 0x60, some 0x05, none] := by
  constructor
  · rw [List.length_replicate]
  · decide

/-- The last place of a fetch, holding 6001. -/
def atEnd : State := ((start 0 0).setPc 0xFFE).storeBytes 0xFFE [0x60, 0x01]

theorem witness_StepRunsTheDecodedInstruction : atEnd.fault = none ∧ atEnd.mode = .ready ∧
    atEnd.pc.toNat + 1 ≤ 0xFFF ∧ atEnd.peek 0xFFE = some 0x60 ∧ atEnd.peek 0xFFF = some 0x01 ∧
    decode [0x60, 0x01] = .ok (.ldImm 0 1, []) ∧ completes (.ldImm 0 1) atEnd = true := by decide
theorem witness_StepRunsTheDecodedInstruction_fault : let s := start 0 0x00EE;
    s.fault = none ∧ s.mode = .ready ∧ s.peek 0x300 = some 0x00 ∧ s.peek 0x301 = some 0xEE ∧
    decode [0x00, 0xEE] = .ok (.ret, []) ∧ isNext (exec .ret s) = true ∧ completes .ret s = false := by decide
theorem witness_FetchComposesBigEndian :
    atEnd.pc.toNat + 1 ≤ 0xFFF ∧ atEnd.peek 0xFFE = some 0x60 ∧ atEnd.peek 0xFFF = some 0x01 := by decide
theorem witness_FetchFaultsInOrder :
    (let s := atEnd.setPc 0xFFF; s.fault = none ∧ s.mode = .ready ∧ 0xFFF < s.pc.toNat + 1) ∧
    (let s := (start 0 0).setPc 0xFFE; s.fault = none ∧ s.mode = .ready ∧ s.pc.toNat + 1 ≤ 0xFFF ∧
      s.peek s.pc.toNat = none) ∧
    (let s := ((start 0 0).setPc 0xFFE).storeBytes 0xFFE [0x60]; s.fault = none ∧ s.mode = .ready ∧
      s.pc.toNat + 1 ≤ 0xFFF ∧ s.peek s.pc.toNat ≠ none ∧ s.peek (s.pc.toNat + 1) = none) := by decide
theorem witness_UnimplementedWordFaults : let s := start 0 0x0123;
    s.fault = none ∧ s.mode = .ready ∧ s.pc.toNat + 1 ≤ 0xFFF ∧ s.peek 0x300 = some 0x01 ∧ s.peek 0x301 = some 0x23 ∧
    decode [0x01, 0x23] = .error (.unimplemented (composeOp 0x01 0x23)) := by decide
theorem witness_FaultingStepRollsBack :
    view reason (step (start 0 0x00EE)) = some (some (.stackUnderflow 0)) ∧
    view reason (step (start 0 0x0000)) = some (some (.unimplemented 0)) ∧
    view reason (step (atEnd.setPc 0xFFF)) = some (some (.fetchOutOfRange 0xFFF)) := by decide
theorem witness_FaultedBlockTakesNoStep :
    ((start 0 0).setFault (some ⟨.stackUnderflow 0, 0x300, some 0x00EE⟩)).fault
      = some ⟨.stackUnderflow 0, 0x300, some 0x00EE⟩ := by decide
theorem witness_UnfaultedBlockAlwaysSteps : (start 0 0).fault = none := by decide
theorem witness_KeysAreLatchedFirst : let s := { start 0 0xE19E with
      v := Vector.replicate 16 15, vWritten := Vector.replicate 16 true, keysCur := held [0], inputs := [⟨keys [15], false, 0⟩] };
    s.fault = none ∧ s.mode = .ready ∧ s.fetchOp = .ok 0xE19E ∧ decodeWord 0xE19E = some (.skp 1) ∧
    view (fun t => t.fault) (step s) = some none := by decide
theorem witness_KeysAreLatchedFirst_waiting :
    let s := { start 0 0xF40A with mode := .waitingForKey, op := 0xF40A, keysCur := held [15], inputs := [ticking] };
    s.mode = .waitingForKey ∧ isNext (step s) = true := by decide
theorem witness_TimersCountDownLast :
    (let s := { start 0 0xF215 with mode := .waitingForKey, op := 0xF00A, dt := 1, st := 255, inputs := [ticking] };
      s.mode = .waitingForKey ∧ view (fun t => t.fault) (step s) = some none) ∧
    (let s := { (start 0 0xF215).writeV 2 0 with dt := 9, inputs := [ticking] };
      s.mode = .ready ∧ s.fetchOp = .ok 0xF215 ∧ decodeWord 0xF215 = some (.ldDtVx 2) ∧
      view (fun t => t.fault) (step s) = some none) ∧
    (let s := { (start 0 0xF218).writeV 2 255 with inputs := [ticking] };
      s.mode = .ready ∧ s.fetchOp = .ok 0xF218 ∧ decodeWord 0xF218 = some (.ldStVx 2) ∧
      view (fun t => t.fault) (step s) = some none) := by decide
theorem witness_WaitingStepRunsTheWaitBody :
    (let s := { start 0 0 with mode := .waitingForKey, op := 0xF40A, keysCur := held [0] };
      s.fault = none ∧ FirstTransition s.keysCur (pressed s.input.keys) 0) ∧
    (let s := { start 0 0 with mode := .waitingForKey, op := 0xF40A, inputs := [⟨keys [15], false, 0⟩] };
      s.fault = none ∧ FirstTransition s.keysCur (pressed s.input.keys) 15) ∧
    (let s := { start 0 0 with mode := .waitingForKey, op := 0xF40A };
      s.fault = none ∧ ∀ k : Reg, (pressed s.input.keys)[k.val] = s.keysCur[k.val]) := by
  unfold FirstTransition; decide
theorem witness_ModeChangesOnlyInTheWaitBody :
    view (fun t => (t.fault, t.mode)) (step (start 0 0x6000)) = some (none, .ready) ∧
    view (fun t => (t.fault, t.mode)) (step (start 0 0xFF0A)) = some (none, .waitingForKey) ∧
    view (fun t => (t.fault, t.mode)) (step { start 0 0xFF0A with keysCur := held [15] }) = some (none, .ready) ∧
    view (fun t => (t.fault, t.mode))
      (step { start 0 0 with mode := .waitingForKey, op := 0xF40A, keysCur := held [15] }) = some (none, .ready) ∧
    view reason (step (start 0 0x00EE)) = some (some (.stackUnderflow 0)) := by decide
theorem witness_ParametersNeverChange : isNext (step (start 0 0x6000)) = true := by decide
theorem witness_OnlyStoresWriteMemory : completes (.loadRegs 15) (full 0) = true ∧ completes (.drw 0 0 15) (full 0) = true := by
  decide
theorem witness_OnlyCallAndRetUseTheStack :
    completes .ret ((full 0).setSp 1) = true ∧ completes (.jp 0xFFF) (full 0) = true := by decide
theorem witness_OnlyClsAndDrwWriteTheDisplay : completes (.storeRegs 15) (full 0) = true := by decide
theorem witness_WrittenMarksAreNeverCleared : MemoryCanonical (full 0) ∧ isNext (step (full 0)) = true ∧
    (full 0).vWritten[15] = true ∧ (full 0).indexWritten = true ∧ (full 0).peek 0x40F ≠ none := by decide
theorem witness_ImplicitFlagWritesAreTheTable : (full 0).fault = none ∧
    ([Instr.orReg 15 0, .andReg 0 1, .xorReg 0 1, .addReg 15 14, .subReg 15 14, .subnReg 15 14, .shr 15 14, .shl 15 14,
      .drw 15 15 15, .addI 15, .addImm 15 1, .ldImm 0 1, .loadRegs 14].all fun i =>
        completes i (full 0) && completes i (full 0x3F)) = true := by decide
theorem witness_PresetsSetTheirBits : (full Config.original).params.quirks = Config.original ∧
    (full Config.schip).params.quirks = Config.schip ∧ (full Config.xochip).params.quirks = Config.xochip ∧
    (14 : Reg) ≠ VF ∧ (full 0).vWritten[14] = true ∧ (full 0).vWritten[15] = true := by decide
theorem witness_StepKeepsMemoryCanonical :
    let s := ((start 0 0xF055).writeV 0 9).writeI 0xFFF;
    MemoryCanonical s ∧ view (fun t => (t.fault, t.peek 0xFFF)) (step s) = some (none, some 9) := by decide

/-- A block that called twice, returned once and waits for a key; the word before `pc` is F40A. -/
def deep : State :=
  { (((start 0 0xF40A).push 0x1000).push 0x302).setSp 1 with pc := 0x302, op := 0xF40A, mode := .waitingForKey }

theorem witness_StepKeepsControlSound : ControlSound deep ∧ isNext (step deep) = true := by
  refine ⟨⟨by decide, fun k hk => ?_, by decide, fun _ => ⟨4, by decide⟩, fun f h => by cases h⟩, by decide⟩
  obtain rfl : k = 0 := Nat.lt_one_iff.mp hk
  exact ⟨0x1000, by decide, by decide⟩
theorem witness_WaitingKeepsTheOpcodeInMemory : RetainedOpInMemory deep ∧ deep.mode = .waitingForKey ∧
    isNext (step deep) = true := by
  unfold RetainedOpInMemory; decide

theorem witness_RetPopsTheReturnAddress :
    ((full 0).setSp 1).sp ≠ 0 ∧ ((full 0).setSp 255).sp ≠ 0 ∧ ((full 0).setSp 0).sp = 0 := by decide
theorem witness_CallPushesTheReturnAddress :
    ((full 0).setSp 0).sp ≠ 255 ∧ ((full 0).setSp 254).sp ≠ 255 ∧ ((full 0).setSp 255).sp = 255 := by decide
theorem witness_RetUndoesCall : ((full 0).setSp 254).sp ≠ 255 := by decide

/-- Written and unwritten registers, for every statement on registers alone: `x` and `y` the same, and up to 15. -/
theorem witness_registers : (full 0).vWritten[0] = true ∧ (full 0).vWritten[15] = true ∧
    (blank 0).vWritten[0] = false ∧ (blank 0).vWritten[15] = false ∧
    ((blank 0).writeV 15 1).vWritten[15] = true ∧ ((blank 0).writeV 15 1).vWritten[0] = false := by decide
theorem witness_ImmediateSkips : (full 0).vWritten[15] = true ∧ (blank 0).vWritten[15] = false := by decide
theorem witness_RegisterSkips : (full 0).vWritten[14] = true ∧ (full 0).vWritten[15] = true ∧
    ((blank 0).writeV 0 1).vWritten[0] = true ∧ ((blank 0).writeV 0 1).vWritten[15] = false := by decide
theorem witness_JumpWithOffset : (full 0x3F).qJump = true ∧ (full 0).qJump = false ∧
    (full 0x3F).vWritten[0] = true ∧ (full 0).vWritten[15] = true ∧ (blank 0x3F).vWritten[0] = false ∧
    ((blank 0).writeV 0 1).vWritten[15] = false := by decide
theorem witness_AddImmediate : (full 0).vWritten[15] = true ∧ (blank 0).vWritten[15] = false := by decide
theorem witness_RegisterCopy : (full 0).vWritten[15] = true ∧ (blank 0).vWritten[15] = false := by decide
theorem witness_BitwiseLogic : (full 0x3F).qLogic = true ∧ (full 0).qLogic = false ∧
    (full 0x3F).vWritten[15] = true ∧ (full 0).vWritten[15] = true ∧ (14 : Reg) ≠ VF ∧
    (full 0x3F).vWritten[14] = true := by decide
theorem witness_AddAndSubtract : (full 0).vWritten[15] = true ∧ (full 0).vWritten[14] = true ∧ (14 : Reg) ≠ VF := by
  decide
theorem witness_TwoRegisterReadFaults : (blank 0).vWritten[15] = false ∧
    ((blank 0).writeV 15 1).vWritten[15] = true ∧ ((blank 0).writeV 15 1).vWritten[14] = false := by decide
theorem witness_ShiftsByOne : (full 1).qShift = true ∧ (full 0).qShift = false ∧ (full 1).vWritten[15] = true ∧
    (blank 1).vWritten[15] = false := by decide

theorem witness_DrwInvertsTheCoveredCells :
    (full 0).vWritten[15] = true ∧ SpriteBytes (full 0) 1 [0x80] ∧ SpriteBytes (blank 0) 0 [] ∧
    SpriteCovers true 63 31 [0x80] 63 31 ∧ SpriteCovers false 64 32 [0x80] 0 0 ∧
    SpriteBytes (full 0) 15 [0x80, 1, 2, 3, 4, 5, 6, 7, 8, 9, 10, 11, 12, 13, 14] := by
  refine ⟨by decide, ?_, ?_, ?_, ?_, ?_⟩
  · unfold SpriteBytes; decide
  · unfold SpriteBytes; decide
  · exact ⟨0, by decide, 0, by decide, by decide⟩
  · exact ⟨0, by decide, 0, by decide, by decide⟩
  · unfold SpriteBytes; decide
theorem witness_DrawingTwiceRestoresTheDisplay : (14 : Reg) ≠ VF ∧ (full 0).vWritten[14] = true ∧
    SpriteBytes (full 0) 1 [0x80] := by
  refine ⟨by decide, by decide, ?_⟩
  unfold SpriteBytes; decide
/-- The fourth clause: row 0 not readable, and row 1 beyond the array after a readable row 0. -/
theorem witness_DrwReadFaults : (blank 0).vWritten[15] = false ∧ ((blank 0).writeV 15 1).vWritten[14] = false ∧
    ((blank 0).writeV 15 1).indexWritten = false ∧ ¬ Readable ((full 0).writeI 0x500) 0x500 ∧
    (let s := ((full 0).writeI 0xFFF).storeBytes 0xFFF [1];
      s.indexWritten = true ∧ Readable s (s.index.toNat + 0) ∧ ¬ Readable s (s.index.toNat + 1)) := by
  unfold Readable; decide

theorem witness_KeySkips : ((blank 0).writeV 1 0).v[1].toNat = (0 : Reg).val ∧
    ((blank 0).writeV 1 15).v[1].toNat = (15 : Reg).val ∧ 15 < ((blank 0).writeV 1 16).v[1].toNat ∧
    ((blank 0).writeV 1 15).vWritten[1] = true ∧ (blank 0).vWritten[1] = false := by decide
theorem witness_TimerRegisterMoves : (full 0).vWritten[15] = true ∧ (blank 0).vWritten[15] = false := by decide
theorem witness_KeyWaitRecordsTheFirstTransition :
    (let s := { blank 0 with keysPrev := held [0, 15], keysCur := held [15] }; FirstTransition s.keysPrev s.keysCur 0) ∧
    (let s := { blank 0 with keysCur := held [15] }; FirstTransition s.keysPrev s.keysCur 15) ∧
    (let s := { blank 0 with keysPrev := held [3], keysCur := held [3] };
      ∀ k : Reg, s.keysCur[k.val] = s.keysPrev[k.val]) := by
  unfold FirstTransition; decide

theorem witness_AddToIndex : ((full 0).writeI 0xFFFF).indexWritten = true ∧
    ((full 0).writeI 0xFFFF).vWritten[15] = true ∧ (blank 0).indexWritten = false ∧
    ((blank 0).writeI 0).vWritten[15] = false := by decide
theorem witness_FontAddressIsAdded : ((full 0).writeI 0xFFFF).vWritten[15] = true ∧
    ((full 0).writeI 0xFFFF).indexWritten = true ∧
    (blank 0).vWritten[15] = false ∧ ((blank 0).writeV 15 1).indexWritten = false := by decide
theorem witness_BcdStore : MemoryCanonical ((full 0).writeI 0xFFD) ∧ ((full 0).writeI 0xFFD).index.toNat + 2 ≤ 0xFFF ∧
    0xFFF < ((full 0).writeI 0xFFE).index.toNat + 2 ∧ (blank 0).vWritten[15] = false ∧
    ((blank 0).writeV 15 1).indexWritten = false := by decide
theorem witness_RegisterStore : MemoryCanonical ((full 0).writeI 0xFF0) ∧
    ((full 0).writeI 0xFF0).index.toNat + (15 : Reg).val ≤ 0xFFF ∧
    (∀ r : Reg, r ≤ 15 → ((full 0).writeI 0xFF0).vWritten[r.val] = true) ∧
    (∀ r : Reg, r ≤ 0 → (((blank 0).writeV 0 1).writeI 0xFFF).vWritten[r.val] = true) := by decide
theorem witness_RegisterLoad : (full 0).indexWritten = true ∧
    (∀ r : Reg, r ≤ 15 → Readable (full 0) ((full 0).index.toNat + r.val)) := by
  unfold Readable; decide
theorem witness_RegisterStoreAndLoadFaults : (blank 0).indexWritten = false ∧
    0xFFF < ((full 0).writeI 0xFFF).index.toNat + (1 : Reg).val ∧
    (let s := ((blank 0).writeV 0 1).writeI 0xFFE; s.index.toNat + (1 : Reg).val ≤ 0xFFF ∧
      (∀ q : Reg, q < 1 → s.vWritten[q.val] = true) ∧ s.vWritten[1] = false) ∧
    (let s := ((full 0).writeI 0xFFF).storeBytes 0xFFF [1];
      (∀ j < 1, Readable s (s.index.toNat + j)) ∧ ¬ Readable s (s.index.toNat + 1)) ∧
    ¬ Readable ((full 0).writeI 0x500) (0x500 + 0) := by
  unfold Readable; decide

end Sys2Proof.Tests
end

section
/-! The flag register `VF` (10_state.md R21): what each write of it leaves, and when a draw sets it. -/

namespace Sys2Proof.Machine

/-! ### Instructions that complete -/

/-- Where an instruction completes, its read succeeded. -/
theorem State.orFault_completes {α : Type} {s t : State} {e : Except FaultReason α} {k : α → Result}
    (h : s.orFault e k = .next t) (ht : t.fault = none) : ∃ a, e = .ok a ∧ k a = .next t := by
  rcases State.orFault_next h with ⟨r, rfl⟩ | h
  · cases ht
  · exact h

/-- Where an instruction completes, it went on with the register it read. -/
theorem State.readV_completes {s t : State} {x : Reg} {k : Byte → Result}
    (h : s.orFault (s.readV x) k = .next t) (ht : t.fault = none) : k s.v[x.val] = .next t := by
  obtain ⟨a, ha, hk⟩ := State.orFault_completes h ht
  rwa [(s.readV_ok_iff.mp ha).2]

/-- Where an instruction completes, it went on with the `I` it read. -/
theorem State.readI_completes {s t : State} {k : Word → Result}
    (h : s.orFault s.readI k = .next t) (ht : t.fault = none) : k s.index = .next t := by
  obtain ⟨a, ha, hk⟩ := State.orFault_completes h ht
  rwa [(s.readI_ok_iff.mp ha).2]

/-- A register outside `writesRegs` is unchanged, also where the instruction faults. -/
theorem exec_keeps_reg {i : Instr} {s t : State} {r : Reg} (h : exec i s = .next t) (hr : r ∉ writesRegs i) :
    t.v[r.val] = s.v[r.val] ∧ t.vWritten[r.val] = s.vWritten[r.val] := by
  rcases exec_cases h with ⟨_, rfl⟩ | hframe
  · exact ⟨rfl, rfl⟩
  · exact hframe.1 r hr

/-! ### The write of the flag -/

/-- The flag written is the truth of the condition it computes, whatever was written before it. -/
theorem HoldsV.writeFlag {p : Prop} [Decidable p] {f : Bool} (s : State) (hf : f = true ↔ p) :
    HoldsV (s.writeFlag f) VF (if p then 1 else 0) := by
  have hb : (if f = true then 1 else 0 : Byte) = if p then 1 else 0 := if_congr hf rfl rfl
  exact hb ▸ HoldsV.writeV s VF _

theorem State.writeFlag_VF_eq_one_iff (s : State) (f : Bool) : (s.writeFlag f).v[15] = 1 ↔ f = true := by
  cases f <;> simp [State.writeFlag]

theorem carryFlag_iff {a b : Byte} : carryFlag a b = true ↔ a.toNat + b.toNat > 255 := decide_eq_true_iff

theorem positiveFlag_iff {a b : Byte} : positiveFlag a b = true ↔ a.toNat > b.toNat := decide_eq_true_iff

theorem indexFlag_iff {i : Word} {b : Byte} : indexFlag i b = true ↔ i.toNat + b.toNat > 0xFFF := decide_eq_true_iff

theorem lowBit_iff {b : Byte} : lowBit b = true ↔ b.toNat % 2 = 1 := by
  simp [lowBit, BitVec.getLsbD, Nat.testBit_zero]

theorem highBit_iff {b : Byte} : highBit b = true ↔ b.toNat ≥ 128 := by
  have := b.isLt
  simp only [highBit, BitVec.getLsbD, Nat.testBit_eq_decide_div_mod_eq, decide_eq_true_eq]
  omega

theorem State.logicFlag_set {s : State} (h : s.qLogic = true) : s.logicFlag = s.writeFlag false := if_pos h

theorem State.logicFlag_clear {s : State} (h : ¬ s.qLogic = true) : s.logicFlag = s := if_neg h

/-- OR, AND and XOR: `VF` is 0 under `Q_LOGIC`, else left alone unless it is the destination. -/
theorem logicFlag_VF (s : State) (x : Reg) (b : Byte) :
    if s.qLogic then HoldsV (s.writeV x b).logicFlag VF 0
    else x ≠ VF → (s.writeV x b).logicFlag.v[15] = s.v[15] ∧ (s.writeV x b).logicFlag.vWritten[15] = s.vWritten[15] := by
  split
  · next hq =>
    rw [State.logicFlag_set (s := s.writeV x b) hq]
    exact HoldsV.writeV _ VF 0
  · next hq =>
    rw [State.logicFlag_clear (s := s.writeV x b) hq]
    exact fun hx => writeV_others s x b VF (by simpa using hx.symm)

/-! ### The collision flag of a draw (43_display.md R211) -/

/-- The flag says whether a cell went from 1 to 0 in the whole draw. -/
theorem drawCells_hit_iff {cells : List (Fin 64 × Fin 32)} (hn : cells.Nodup) (d : Display) :
    (drawCells d false cells).2 = true ↔
      ∃ px py, d.cell px py = true ∧ (drawCells d false cells).1.cell px py = false := by
  obtain ⟨hcell, hhit⟩ := drawCells_spec cells hn d false
  rw [hhit]
  constructor
  · rintro (h | ⟨⟨px, py⟩, hm, hc⟩)
    · cases h
    · exact ⟨px, py, hc, by simp [hcell, hc, hm]⟩
  · rintro ⟨px, py, hc, hf⟩
    exact .inr ⟨(px, py), by simpa [hcell, hc] using hf, hc⟩

theorem State.spriteRows_length {s : State} {n : Nibble} {rows : List Byte} (h : s.spriteRows n = .ok rows) :
    rows.length = n.toNat := by
  rcases State.spriteRows_ok_iff.mp h with ⟨rfl, rfl⟩ | ⟨-, -, h⟩
  · rfl
  · exact (State.readBytes_ok_iff.mp h).1

/-- A completed DRW leaves `VF` 1 exactly when it erased a cell. -/
theorem execDrw_VF {x y : Reg} {n : Nibble} {s t : State} (h : execDrw x y n s = .next t) (ht : t.fault = none) :
    (t.v[15] = 1 ∨ t.v[15] = 0) ∧ t.vWritten[15] = true ∧
      (t.v[15] = 1 ↔ ∃ px py, s.display.cell px py = true ∧ t.display.cell px py = false) := by
  obtain ⟨rows, hrows, hnext⟩ := State.orFault_completes (State.readV_completes (State.readV_completes h ht) ht) ht
  have hlen : rows.length ≤ 32 := by
    have := State.spriteRows_length hrows
    have := n.isLt
    omega
  have hhit := drawCells_hit_iff (spriteCells_nodup s.qClip s.v[x.val].toNat s.v[y.val].toNat 0 rows hlen) s.display
  cases hnext
  obtain ⟨hv, hw⟩ := HoldsV.writeFlag (s.setDisplay _) hhit
  refine ⟨?_, hw, ?_⟩
  · exact (ite_eq_or_eq _ _ _).imp hv.trans hv.trans
  · exact (State.writeFlag_VF_eq_one_iff _ _).trans hhit

/-! ### Instructions whose registers are written -/

/-- Going on after the read of a written register. -/
theorem State.orFault_readV_written {s : State} {x : Reg} (h : s.vWritten[x.val] = true) (k : Byte → Result) :
    s.orFault (s.readV x) k = k s.v[x.val] := by
  rw [s.readV_written h, State.orFault_ok]

/-- OR, AND and XOR of written registers: the result into `V[x]`, then the logic flag. -/
theorem exec_logic_written {s : State} {x y : Reg} (hx : s.vWritten[x.val] = true) (hy : s.vWritten[y.val] = true) :
    ∀ i ∈ [Instr.orReg x y, .andReg x y, .xorReg x y], ∃ b, exec i s = .next (s.writeV x b).logicFlag := by
  have hread (op : Byte → Byte → Byte) :
      (s.orFault (s.readV x) fun a => s.orFault (s.readV y) fun b => .next (s.writeV x (op a b)).logicFlag) =
        .next (s.writeV x (op s.v[x.val] s.v[y.val])).logicFlag := by
    rw [State.orFault_readV_written hx, State.orFault_readV_written hy]
  simp only [List.forall_mem_cons, List.not_mem_nil, false_imp_iff, implies_true, and_true]
  exact ⟨⟨_, hread (· ||| ·)⟩, ⟨_, hread (· &&& ·)⟩, ⟨_, hread (· ^^^ ·)⟩⟩

theorem State.shiftReg_written {s : State} {x y : Reg} (hx : s.vWritten[x.val] = true)
    (hy : s.vWritten[y.val] = true) : s.vWritten[(s.shiftReg x y).val] = true := by
  unfold State.shiftReg
  split
  · exact hy
  · exact hx

theorem State.shiftReg_set {s : State} (h : s.qShift = true) (x y : Reg) : s.shiftReg x y = y := if_pos h

theorem State.shiftReg_clear {s : State} (h : ¬ s.qShift = true) (x y : Reg) : s.shiftReg x y = x := if_neg h

/-- A result in another register than `VF` survives the write of the flag. -/
theorem writeFlag_v_dest (s : State) {x : Reg} (hx : x ≠ VF) (b : Byte) (f : Bool) :
    ((s.writeV x b).writeFlag f).v[x.val] = b :=
  ((s.writeV x b).writeV_v_other _ hx).trans (s.writeV_v_self x b)

/-! ### The presets (10_state.md R34) -/

theorem quirks_original {s : State} (h : s.params.quirks = Config.original) :
    s.qShift ∧ s.qLoadStore ∧ s.qJump ∧ s.qLogic ∧ s.qClip ∧ s.params.quirks.getLsbD 4 := by
  unfold State.qShift State.qLoadStore State.qJump State.qLogic State.qClip
  rw [h]
  decide

theorem quirks_schip {s : State} (h : s.params.quirks = Config.schip) :
    ¬ s.qShift ∧ ¬ s.qLoadStore ∧ ¬ s.qJump ∧ ¬ s.qLogic ∧ s.qClip ∧ ¬ s.params.quirks.getLsbD 4 := by
  unfold State.qShift State.qLoadStore State.qJump State.qLogic State.qClip
  rw [h]
  decide

theorem quirks_xochip {s : State} (h : s.params.quirks = Config.xochip) :
    s.qShift ∧ s.qLoadStore ∧ s.qJump ∧ ¬ s.qLogic ∧ ¬ s.qClip ∧ ¬ s.params.quirks.getLsbD 4 := by
  unfold State.qShift State.qLoadStore State.qJump State.qLogic State.qClip
  rw [h]
  decide

theorem qLogic_of_original {s : State} (h : s.params.quirks = Config.original) : s.qLogic = true := by
  obtain ⟨-, -, -, hlogic, -⟩ := quirks_original h
  exact hlogic

theorem not_qLogic_of_schip_or_xochip {s : State}
    (h : s.params.quirks = Config.schip ∨ s.params.quirks = Config.xochip) : ¬ s.qLogic = true := by
  rcases h with h | h
  · obtain ⟨-, -, -, hlogic, -⟩ := quirks_schip h
    exact hlogic
  · obtain ⟨-, -, -, hlogic, -⟩ := quirks_xochip h
    exact hlogic

theorem qShift_of_original_or_xochip {s : State}
    (h : s.params.quirks = Config.original ∨ s.params.quirks = Config.xochip) : s.qShift = true :=
  h.elim (fun h => (quirks_original h).1) fun h => (quirks_xochip h).1

/-- The consequence for the logic instructions: `VF` zeroed under ORIGINAL, left alone under SCHIP and XOCHIP. -/
theorem preset_logic {s : State} {x y : Reg} (hVF : x ≠ VF) (hx : s.vWritten[x.val] = true)
    (hy : s.vWritten[y.val] = true) : ∀ i ∈ [Instr.orReg x y, .andReg x y, .xorReg x y], ∃ t, exec i s = .next t ∧
      (s.params.quirks = Config.original → HoldsV t VF 0) ∧
      (s.params.quirks = Config.schip ∨ s.params.quirks = Config.xochip → t.v[15] = s.v[15]) := by
  intro i hi
  obtain ⟨b, hexec⟩ := exec_logic_written hx hy i hi
  have hflag := logicFlag_VF s x b
  refine ⟨_, hexec, fun hq => ?_, fun hq => ?_⟩
  · rwa [if_pos (qLogic_of_original hq)] at hflag
  · rw [if_neg (not_qLogic_of_schip_or_xochip hq)] at hflag
    exact (hflag hVF).1

/-- The consequence for the shifts: `V[y]` is shifted under ORIGINAL and XOCHIP, `V[x]` under SCHIP. -/
theorem preset_shift {s : State} {x y : Reg} (hVF : x ≠ VF) (hx : s.vWritten[x.val] = true)
    (hy : s.vWritten[y.val] = true) : ∃ t u, exec (.shr x y) s = .next t ∧ exec (.shl x y) s = .next u ∧
      (s.params.quirks = Config.original ∨ s.params.quirks = Config.xochip →
        t.v[x.val] = s.v[y.val] >>> 1 ∧ u.v[x.val] = s.v[y.val] <<< 1) ∧
      (s.params.quirks = Config.schip →
        t.v[x.val] = s.v[x.val] >>> 1 ∧ u.v[x.val] = s.v[x.val] <<< 1) := by
  have hread := State.orFault_readV_written (State.shiftReg_written hx hy)
  refine ⟨_, _, hread _, hread _, fun hq => ?_, fun hq => ?_⟩
  · rw [writeFlag_v_dest s hVF, writeFlag_v_dest s hVF, State.shiftReg_set (qShift_of_original_or_xochip hq)]
    exact ⟨rfl, rfl⟩
  · rw [writeFlag_v_dest s hVF, writeFlag_v_dest s hVF, State.shiftReg_clear (quirks_schip hq).1]
    exact ⟨rfl, rfl⟩

/-! ### The obligations -/

/-- Settles O26: the flag's row for each instruction that writes it, and the frame of `exec` for every other. -/
theorem implicitFlagWritesAreTheTable : Obligations.ImplicitFlagWritesAreTheTable := by
  refine ⟨fun _ => rfl, fun i s t _ h ht => ?_⟩
  cases i with
  | orReg x | andReg x | xorReg x =>
    cases State.readV_completes (State.readV_completes h ht) ht
    exact logicFlag_VF s x _
  | addReg =>
    cases State.readV_completes (State.readV_completes h ht) ht
    exact HoldsV.writeFlag _ carryFlag_iff
  | subReg | subnReg =>
    cases State.readV_completes (State.readV_completes h ht) ht
    exact HoldsV.writeFlag _ positiveFlag_iff
  | shr =>
    cases State.readV_completes h ht
    exact HoldsV.writeFlag _ lowBit_iff
  | shl =>
    cases State.readV_completes h ht
    exact HoldsV.writeFlag _ highBit_iff
  | drw => exact execDrw_VF h ht
  | addI =>
    cases State.readV_completes (State.readI_completes h ht) ht
    exact HoldsV.writeFlag _ indexFlag_iff
  | _ => exact exec_keeps_reg h

/-- Settles O27: the presets' bits read off their values, and the two consequences by the named bits alone. -/
theorem presetsSetTheirBits : Obligations.PresetsSetTheirBits :=
  ⟨rfl, rfl, rfl, fun _ => quirks_original, fun _ => quirks_schip, fun _ => quirks_xochip,
    fun _ _ _ => preset_logic, fun _ _ _ => preset_shift⟩

end Sys2Proof.Machine
end

section
/-! The value of each opcode field by division and remainder (30_encoding.md R81). -/

namespace Sys2Proof

/-- The value of the `n` bits of a word from bit `lo` up. -/
theorem toNat_extractLsb' (op : Word) (lo n : Nat) : (op.extractLsb' lo n).toNat = op.toNat / 2 ^ lo % 2 ^ n := by
  rw [BitVec.extractLsb'_toNat, Nat.shiftRight_eq_div_pow]

/-- The value of a field that starts at bit 0. -/
theorem toNat_extractLsb'_zero (op : Word) (n : Nat) : (op.extractLsb' 0 n).toNat = op.toNat % 2 ^ n := by
  rw [toNat_extractLsb', Nat.pow_zero, Nat.div_one]

/-- The family is all that stands above bit 11, so its value needs no remainder. -/
theorem opFamily_toNat (op : Word) : (opFamily op).toNat = op.toNat / 4096 := by
  have hlt : op.toNat / 4096 < 16 := Nat.div_lt_of_lt_mul op.isLt
  calc (opFamily op).toNat
    _ = op.toNat / 4096 % 16 := toNat_extractLsb' op 12 4
    _ = op.toNat / 4096 := Nat.mod_eq_of_lt hlt

theorem opX_val (op : Word) : (opX op).val = op.toNat / 256 % 16 := toNat_extractLsb' op 8 4

theorem opY_val (op : Word) : (opY op).val = op.toNat / 16 % 16 := toNat_extractLsb' op 4 4

theorem opN_toNat (op : Word) : (opN op).toNat = op.toNat % 16 := toNat_extractLsb'_zero op 4

theorem opNN_toNat (op : Word) : (opNN op).toNat = op.toNat % 256 := toNat_extractLsb'_zero op 8

theorem opNNN_toNat (op : Word) : (opNNN op).toNat = op.toNat % 4096 := toNat_extractLsb'_zero op 12

/-- Settles O2: each field by its own law; the family's, which has no remainder, rests on the word's 16 bits. -/
theorem opcodeFieldsAreTheirBits : Obligations.OpcodeFieldsAreTheirBits := fun op =>
  ⟨opFamily_toNat op, opX_val op, opY_val op, opN_toNat op, opNN_toNat op, opNNN_toNat op⟩

end Sys2Proof
end

section
/-! How a step ends (40_engine_cycle.md R116 to R120): a fault leaves the record only, and a completed step is one
execution in the state that holds the new key snapshots, then the timers and the used-up input. -/

namespace Sys2Proof.Machine

/-! ### What the end of a step leaves -/

@[simp] theorem State.finish_fault (s : State) : s.finish.fault = s.fault := rfl

/-- The record after a step is the one its execution left. -/
@[simp] theorem State.settle_record (s u : State) : (s.settle u).fault = u.fault := by
  cases hu : u.fault with
  | some f => rw [s.settle_fault hu]
  | none => rw [s.settle_ok hu, State.finish_fault, hu]

/-! ### What every instruction leaves -/

/-- Taking a fault leaves every part but the record (R118). -/
theorem takeFault_keeps_part {p : Part} (hp : p ≠ .faultRecord) (s : State) (r : FaultReason) (pcBefore : Word)
    (op : Option Word) : p.same s (s.takeFault r pcBefore op) := by
  cases p with
  | faultRecord => exact absurd rfl hp
  | index | keys | inputs => exact ⟨rfl, rfl⟩
  | stack | memory => exact fun _ => rfl
  | params | pc | sp | dt | st | display | decodeState | mode => rfl

/-- A part outside `writesParts` is unchanged, also where the instruction faults. -/
theorem exec_keeps_part {i : Instr} {s t : State} {p : Part} (h : exec i s = .next t) (hp : p ∉ writesParts i)
    (hrecord : p ≠ .faultRecord) : p.same s t := by
  rcases exec_cases h with ⟨r, rfl⟩ | ⟨-, hparts⟩
  · exact takeFault_keeps_part hrecord s r _ _
  · exact hparts p hp

theorem exec_keeps_keys {i : Instr} {s t : State} (h : exec i s = .next t) :
    t.keysCur = s.keysCur ∧ t.keysPrev = s.keysPrev :=
  exec_keeps_part (p := .keys) h (by cases i <;> simp [writesParts]) (by simp)

theorem exec_keeps_inputs {i : Instr} {s t : State} (h : exec i s = .next t) :
    t.inputs = s.inputs ∧ t.inputNo = s.inputNo :=
  exec_keeps_part (p := .inputs) h (by cases i <;> simp [writesParts]) (by simp)

/-- Only FX0A writes the mode. -/
theorem exec_keeps_mode {i : Instr} {s t : State} (h : exec i s = .next t) (hi : ∀ x, i ≠ .ldVxK x) :
    t.mode = s.mode :=
  exec_keeps_part (p := .mode) h (by cases i <;> simp_all [writesParts]) (by simp)

/-- The wait body is the meaning of FX0A. -/
theorem exec_ldVxK_eq_waitBody (x : Reg) (s : State) : exec (.ldVxK x) s = .next (s.waitBody x) := rfl

theorem waitBody_fault (s : State) (x : Reg) : (s.waitBody x).fault = s.fault :=
  (frame_waitBody s x).2 .faultRecord (by decide)

/-! ### The mode after the wait body (44_input_timers.md R236) -/

/-- At most one key changes first. -/
theorem FirstTransition.unique {prev cur : Vector Bool 16} {j k : Reg} (hj : FirstTransition prev cur j)
    (hk : FirstTransition prev cur k) : j = k := by
  rcases lt_trichotomy j k with hlt | heq | hgt
  · exact absurd (hk.2 j hlt) hj.1
  · exact heq
  · exact absurd (hj.2 k hgt) hk.1

theorem waitBody_mode_of_transition {s : State} {k : Reg} (h : FirstTransition s.keysPrev s.keysCur k) (x : Reg) :
    (s.waitBody x).mode = if s.keysPrev[k.val] && !s.keysCur[k.val] then .ready else .waitingForKey := by
  unfold State.waitBody
  rw [State.firstTransition_eq_some.mpr h]
  rfl

theorem waitBody_mode_of_no_transition {s : State} (h : ∀ k : Reg, s.keysCur[k.val] = s.keysPrev[k.val]) (x : Reg) :
    (s.waitBody x).mode = .waitingForKey := by
  unfold State.waitBody
  rw [State.firstTransition_eq_none.mpr h]
  rfl

/-- Only a release as first transition ends the wait. -/
theorem waitBody_mode_ready_iff (s : State) (x : Reg) : (s.waitBody x).mode = .ready ↔
    ∃ k, FirstTransition s.keysPrev s.keysCur k ∧ s.keysPrev[k.val] = true ∧ s.keysCur[k.val] = false := by
  rcases firstTransition_cases s with ⟨k, -, hfirst⟩ | ⟨-, hsame⟩
  · rw [waitBody_mode_of_transition hfirst]
    constructor
    · intro hmode
      exact ⟨k, hfirst, by simpa using hmode⟩
    · rintro ⟨j, hj, hprev, hcur⟩
      obtain rfl := hj.unique hfirst
      simp [hprev, hcur]
  · rw [waitBody_mode_of_no_transition hsame]
    constructor
    · intro hmode
      cases hmode
    · rintro ⟨k, hfirst, -⟩
      exact absurd (hsame k) hfirst.1

/-! ### The two ends of a step -/

/-- A step that takes a fault changes the record only. -/
theorem step_takes_fault {s t : State} {f : FaultRecord} (h : step s = .next t) (ht : t.fault = some f) :
    t = s.setFault (some f) := by
  obtain ⟨hf, ⟨-, rfl⟩ | ⟨-, ⟨r, -, rfl⟩ | ⟨op, -, -, rfl⟩ | ⟨op, i, u, -, -, -, rfl⟩⟩⟩ := step_cases h
  · have hnone : s.waitStep.fault = none := (waitBody_fault s.latchKeys (opX s.op)).trans hf
    rw [hnone] at ht
    cases ht
  · cases ht
    rfl
  · cases ht
    rfl
  · rw [State.settle_record] at ht
    exact s.settle_fault ht

/-- All that a completed step can have done: the wait body, or the instruction fetched. -/
theorem step_completes {s t : State} (h : step s = .next t) (ht : t.fault = none) :
    (s.mode = .waitingForKey ∧ t = s.waitStep) ∨
    (s.mode = .ready ∧ ∃ op i u, s.fetchOp = .ok op ∧ decodeWord op = some i ∧
      exec i (s.latchKeys.enterExecute op) = .next u ∧ t = u.finish) := by
  obtain ⟨-, hwait | ⟨hready, ⟨r, -, rfl⟩ | ⟨op, -, -, rfl⟩ | ⟨op, i, u, hfetch, hdecode, hexec, rfl⟩⟩⟩ := step_cases h
  · exact .inl hwait
  · cases ht
  · cases ht
  · rw [State.settle_record] at ht
    exact .inr ⟨hready, op, i, u, hfetch, hdecode, hexec, s.settle_ok ht⟩

/-- A completed step whose instruction is known. -/
theorem step_completes_exec {s t : State} {op : Word} {i : Instr} (hready : s.mode = .ready)
    (hfetch : s.fetchOp = .ok op) (hdecode : decodeWord op = some i) (h : step s = .next t) (ht : t.fault = none) :
    ∃ u, exec i (s.latchKeys.enterExecute op) = .next u ∧ t = u.finish := by
  rcases step_completes h ht with ⟨hwait, -⟩ | ⟨-, op', i', u, hfetch', hdecode', hexec, rfl⟩
  · cases hready.symm.trans hwait
  · cases hfetch.symm.trans hfetch'
    cases hdecode.symm.trans hdecode'
    exact ⟨u, hexec, rfl⟩

/-- A waiting step is the wait body in the latched state. -/
theorem step_of_waiting {s t : State} (hwait : s.mode = .waitingForKey) (h : step s = .next t) :
    t = (s.latchKeys.waitBody (opX s.op)).finish := by
  obtain ⟨hf, -⟩ := step_cases h
  cases (step_waiting hf hwait).symm.trans h
  rfl

/-- The end of a step that executed `i` in a state with the inputs of `s`, in terms of `s`. -/
theorem finish_of_exec {i : Instr} {s s' u : State} (hexec : exec i s' = .next u) (hi : s'.inputs = s.inputs)
    (hn : s'.inputNo = s.inputNo) : u.finish = { u with
      dt := countDown s.input.tick u.dt, st := countDown s.input.tick u.st,
      inputs := s.inputs.tail, inputNo := s.inputNo + 1 } := by
  obtain ⟨hinputs, hinputNo⟩ := exec_keeps_inputs hexec
  exact s.finish_eq_of_inputs (hinputs.trans hi) (hinputNo.trans hn)

/-- A completed step that executes FX0A or waits ends as the wait body run in a state with the new snapshots. -/
theorem step_runs_waitBody {s t : State} (h : step s = .next t) (ht : t.fault = none)
    (hbody : s.mode = .waitingForKey ∨ ∃ op x, s.fetchOp = .ok op ∧ decodeWord op = some (.ldVxK x)) :
    ∃ (s' : State) (x : Reg), s'.keysPrev = s.keysCur ∧ s'.keysCur = pressed s.input.keys ∧ t.mode = (s'.waitBody x).mode := by
  cases hmode : s.mode with
  | waitingForKey =>
    obtain rfl := step_of_waiting hmode h
    exact ⟨s.latchKeys, opX s.op, rfl, rfl, rfl⟩
  | ready =>
    obtain hwait | ⟨op, x, hfetch, hdecode⟩ := hbody
    · cases hmode.symm.trans hwait
    · obtain ⟨u, hexec, rfl⟩ := step_completes_exec hmode hfetch hdecode h ht
      rw [exec_ldVxK_eq_waitBody] at hexec
      cases hexec
      exact ⟨s.latchKeys.enterExecute op, x, rfl, rfl, rfl⟩

/-- The snapshots after a completed step: latched before the execution, which leaves them. -/
theorem step_latches_keys {s t : State} (h : step s = .next t) (ht : t.fault = none) :
    t.keysPrev = s.keysCur ∧ t.keysCur = pressed s.input.keys := by
  rcases step_completes h ht with ⟨-, rfl⟩ | ⟨-, op, i, u, -, -, hexec, rfl⟩
  · obtain ⟨hcur, hprev⟩ := exec_keeps_keys (exec_ldVxK_eq_waitBody (opX s.op) s.latchKeys)
    exact ⟨hprev, hcur⟩
  · obtain ⟨hcur, hprev⟩ := exec_keeps_keys hexec
    exact ⟨hprev, hcur⟩

/-! ### The obligations -/

/-- Settles O16: no execution writes the snapshots or the inputs, so what the latch put there is there at the end. -/
theorem keysAreLatchedFirst : Obligations.KeysAreLatchedFirst := by
  refine ⟨fun s t => step_latches_keys, ?_, ?_⟩
  · intro s t op i _ hready hfetch hdecode h ht
    obtain ⟨u, hexec, rfl⟩ := step_completes_exec hready hfetch hdecode h ht
    exact ⟨u, hexec, finish_of_exec hexec rfl rfl⟩
  · intro s t hwait h
    rw [step_of_waiting hwait h]
    exact finish_of_exec (exec_ldVxK_eq_waitBody (opX s.op) s.latchKeys) rfl rfl

/-- Settles O19: a fault rolls the mode back, no instruction but FX0A writes it, and the wait body writes it by the
first transition of the step's snapshots. -/
theorem modeChangesOnlyInTheWaitBody : Obligations.ModeChangesOnlyInTheWaitBody := by
  refine fun s t h => ⟨fun f hf => ?_, fun ht => ⟨fun hready hother => ?_, fun hbody => ?_⟩⟩
  · rw [step_takes_fault h hf, State.setFault_mode]
  · rcases step_completes h ht with ⟨hwait, -⟩ | ⟨-, op, i, u, hfetch, hdecode, hexec, rfl⟩
    · cases hready.symm.trans hwait
    · have hi : ∀ x, i ≠ .ldVxK x := fun x hx => hother op x hfetch (hx ▸ hdecode)
      have hkept := exec_keeps_mode hexec hi
      exact hkept.trans hready
  · obtain ⟨s', x, hprev, hcur, hmode⟩ := step_runs_waitBody h ht hbody
    rw [hmode, waitBody_mode_ready_iff, hprev, hcur]

end Sys2Proof.Machine
end

section
/-! The immediate loads and sums of a register (42_register_alu.md R172, R173): their words, and what they do. -/

namespace Sys2Proof

/-! ### The words (30_encoding.md R84) -/

/-- The fields of a `wordX` stand at their place values. -/
theorem toNat_wordX (f : Nibble) (x : Reg) (nn : Byte) :
    (wordX f x nn).toNat = 4096 * f.toNat + 256 * x.val + nn.toNat := by
  have hlow : (regField x ++ nn).toNat = 256 * x.val + nn.toNat := by
    rw [BitVec.toNat_append, ← Nat.shiftLeft_add_eq_or_of_lt nn.isLt, Nat.shiftLeft_eq, Nat.mul_comm]
    rfl
  rw [wordX, BitVec.toNat_append, ← Nat.shiftLeft_add_eq_or_of_lt (regField x ++ nn).isLt, Nat.shiftLeft_eq, hlow]
  omega

/-- The word written out as a number is the one the format builds. -/
theorem ofNat_fields_eq_wordX (f : Nibble) (x : Reg) (nn : Byte) :
    BitVec.ofNat 16 (4096 * f.toNat + 256 * x.val + nn.toNat) = wordX f x nn := by
  rw [← toNat_wordX, BitVec.ofNat_toNat, BitVec.setWidth_eq]

/-- Decoding in a family whose one instruction `c` takes `x` and `nn`: the masked word is the family's key (R85). -/
theorem decodeWord_ofNat_immediate {f : Nibble} {c : Reg → Byte → Instr} (hmask : familyMask f = 0xF000#16)
    (harm : ∀ op, instrOfKey (wordNNN f 0) op = some (c (opX op) (opNN op))) (x : Reg) (nn : Byte) :
    decodeWord (BitVec.ofNat 16 (4096 * f.toNat + 256 * x.val + nn.toNat)) = some (c x nn) := by
  have hwordMask : familyMask (opFamily (wordX f x nn)) = 0xF000#16 := by rw [opFamily_wordX, hmask]
  rw [ofNat_fields_eq_wordX, decodeWord_of_key hwordMask (wordX_family f x nn) (harm _), opX_wordX, opNN_wordX]

theorem decodeWord_ldImm (x : Reg) (nn : Byte) :
    decodeWord (BitVec.ofNat 16 (0x6000 + 256 * x.val + nn.toNat)) = some (.ldImm x nn) :=
  decodeWord_ofNat_immediate (f := 0x6) rfl (fun _ => rfl) x nn

theorem decodeWord_addImm (x : Reg) (nn : Byte) :
    decodeWord (BitVec.ofNat 16 (0x7000 + 256 * x.val + nn.toNat)) = some (.addImm x nn) :=
  decodeWord_ofNat_immediate (f := 0x7) rfl (fun _ => rfl) x nn

end Sys2Proof

namespace Sys2Proof.Machine

/-! ### The effects -/

/-- The read of an unwritten register raises its fault, whatever was to be done with the value. -/
theorem State.orFault_readV_unwritten {s : State} {x : Reg} (h : s.vWritten[x.val] = false) (k : Byte → Result) :
    FaultsWith (s.orFault (s.readV x) k) s (.uninitializedRead (.v x)) := by
  rw [s.readV_unwritten h, State.orFault_error]
  exact s.raise_eq _

/-- The sum of two bytes is their sum as numbers, reduced mod 256. -/
theorem byte_add_eq_ofNat (a b : Byte) : a + b = BitVec.ofNat 8 ((a.toNat + b.toNat) % 256) := by
  rw [← BitVec.toNat_add a b, BitVec.ofNat_toNat, BitVec.setWidth_eq]

/-! ### The obligations -/

/-- Settles O39: the word is the format's, and the effect is one register write. -/
theorem loadImmediate : Obligations.LoadImmediate := by
  refine fun x nn => ⟨decodeWord_ldImm x nn, fun s => ?_⟩
  exact ⟨s.writeV x nn, exec_ldImm x nn s, HoldsV.writeV s x nn, frame_writeV s x nn⟩

/-- Settles O40: the word is the format's; the read of `V[x]` decides between one register write and the fault. -/
theorem addImmediate : Obligations.AddImmediate := by
  refine fun x nn => ⟨decodeWord_addImm x nn, fun s => ⟨fun hx => ?_, fun hx => ?_⟩⟩
  · rw [← byte_add_eq_ofNat]
    exact ⟨_, State.orFault_readV_written hx _, HoldsV.writeV s x _, frame_writeV s x _⟩
  · exact State.orFault_readV_unwritten hx _

end Sys2Proof.Machine
end

section
/-! The decoder and the encoder: each undoes the other, and the words that decode to nothing
(30_encoding.md R85 to R87). -/

namespace Sys2Proof

/-! ### Decoding a word built by a format -/

/-- Families whose key is the family and the low nibble (R85). -/
theorem decodeWord_wordXY {f n : Nibble} {c : Reg → Reg → Instr} (hmask : familyMask f = 0xF00F#16)
    (harm : ∀ op, instrOfKey (wordXY f 0 0 n) op = some (c (opX op) (opY op))) (x y : Reg) :
    decodeWord (wordXY f x y n) = some (c x y) := by
  have hwordMask : familyMask (opFamily (wordXY f x y n)) = 0xF00F#16 := by rw [opFamily_wordXY, hmask]
  rw [decodeWord_of_key hwordMask (wordXY_key f x y n) (harm _), opX_wordXY, opY_wordXY]

/-- Families whose key is the family and the low byte (R85). -/
theorem decodeWord_wordX {f : Nibble} {nn : Byte} {c : Reg → Instr} (hmask : familyMask f = 0xF0FF#16)
    (harm : ∀ op, instrOfKey (wordX f 0 nn) op = some (c (opX op))) (x : Reg) :
    decodeWord (wordX f x nn) = some (c x) := by
  have hwordMask : familyMask (opFamily (wordX f x nn)) = 0xF0FF#16 := by rw [opFamily_wordX, hmask]
  rw [decodeWord_of_key hwordMask (wordX_key f x nn) (harm _), opX_wordX]

/-- Families of one instruction that takes `x` and `nn`. -/
theorem decodeWord_immediate {f : Nibble} {c : Reg → Byte → Instr} (hmask : familyMask f = 0xF000#16)
    (harm : ∀ op, instrOfKey (wordNNN f 0) op = some (c (opX op) (opNN op))) (x : Reg) (nn : Byte) :
    decodeWord (wordX f x nn) = some (c x nn) :=
  ofNat_fields_eq_wordX f x nn ▸ decodeWord_ofNat_immediate hmask harm x nn

/-- Families of one instruction that takes `nnn`, and `x` as its top nibble (R82). -/
theorem decodeWord_wordNNN {f : Nibble} {c : Reg → Addr → Instr} (hmask : familyMask f = 0xF000#16)
    (harm : ∀ op, instrOfKey (wordNNN f 0) op = some (c (opX op) (opNNN op))) (nnn : Addr) :
    decodeWord (wordNNN f nnn) = some (c (opX (wordNNN f nnn)) nnn) := by
  have hwordMask : familyMask (opFamily (wordNNN f nnn)) = 0xF000#16 := by rw [opFamily_wordNNN, hmask]
  rw [decodeWord_of_key hwordMask (wordNNN_family f nnn) (harm _), opNNN_wordNNN]

theorem decodeWord_drw (x y : Reg) (n : Nibble) : decodeWord (wordXY 0xD x y n) = some (.drw x y n) := by
  have hmask : familyMask (opFamily (wordXY 0xD x y n)) = 0xF000#16 := by rw [opFamily_wordXY]; rfl
  have harm (op : Word) : instrOfKey (wordNNN 0xD 0) op = some (.drw (opX op) (opY op) (opN op)) := rfl
  rw [decodeWord_of_key hmask (wordXY_family 0xD x y n) (harm _), opX_wordXY, opY_wordXY, opN_wordXY]

/-- The decoder undoes the encoder on words: one line per format and mask. -/
theorem decodeWord_encodeWord {i : Instr} (h : i.wellFormed = true) : decodeWord (encodeWord i) = some i := by
  cases i with
  | cls | ret => rfl
  | jp nnn => exact decodeWord_wordNNN (c := fun _ => .jp) rfl (fun _ => rfl) nnn
  | call nnn => exact decodeWord_wordNNN (c := fun _ => .call) rfl (fun _ => rfl) nnn
  | ldI nnn => exact decodeWord_wordNNN (c := fun _ => .ldI) rfl (fun _ => rfl) nnn
  | jpV0 x nnn =>
    have hx : opX (wordNNN 0xB nnn) = x := Fin.ext ((opX_wordNNN 0xB nnn).trans (by simpa [Instr.wellFormed] using h))
    exact hx ▸ decodeWord_wordNNN rfl (fun _ => rfl) nnn
  | seImm | sneImm | ldImm | addImm | rnd => exact decodeWord_immediate rfl (fun _ => rfl) _ _
  | seReg | sneReg | ldReg | orReg | andReg | xorReg | addReg | subReg | shr | subnReg | shl =>
    exact decodeWord_wordXY rfl (fun _ => rfl) _ _
  | drw x y n => exact decodeWord_drw x y n
  | skp | sknp | ldVxDt | ldVxK | ldDtVx | ldStVx | addI | ldF | ldB | storeRegs | loadRegs =>
    exact decodeWord_wordX rfl (fun _ => rfl) _

/-- Settles O3: the two bytes compose to the encoded word again, which decodes to the instruction. -/
theorem decodeOfEncodeIsIdentity : Obligations.DecodeOfEncodeIsIdentity := by
  intro i rest h
  have hbytes : encode i ++ rest = opHi (encodeWord i) :: opLo (encodeWord i) :: rest := rfl
  rw [hbytes, decode_cons_cons, composeOp_bytes, decodeWord_encodeWord h]

/-- Settles O1: nine closed words, each run through the decoder. -/
theorem writtenWordsDecode : Obligations.WrittenWordsDecode := by
  unfold Obligations.WrittenWordsDecode
  decide

/-! ### The word of a decoded instruction -/

/-- A word's key under the mask of its own family, from the number the decoder matched. -/
theorem and_mask_of_key {op k m : Word} (h : (op &&& familyMask (opFamily op)).toNat = k.toNat)
    (hmask : familyMask (opFamily k) = m) : op &&& m = k := by
  rw [← hmask, ← BitVec.eq_of_toNat_eq h, opFamily_key]

theorem eq_words_of_key {op : Word} {f : Nibble}
    (h : (op &&& familyMask (opFamily op)).toNat = (wordNNN f 0).toNat) (hmask : familyMask f = 0xF000#16) :
    op = wordNNN f (opNNN op) ∧ op = wordX f (opX op) (opNN op) ∧ op = wordXY f (opX op) (opY op) (opN op) :=
  eq_words_of_family (and_mask_of_key h (by rw [opFamily_wordNNN, hmask]))

theorem wordX_eq_of_key {op : Word} {f : Nibble} {nn : Byte}
    (h : (op &&& familyMask (opFamily op)).toNat = (wordX f 0 nn).toNat) (hmask : familyMask f = 0xF0FF#16) :
    wordX f (opX op) nn = op :=
  (eq_wordX_of_key (and_mask_of_key h (by rw [opFamily_wordX, hmask]))).symm

theorem wordXY_eq_of_key {op : Word} {f n : Nibble}
    (h : (op &&& familyMask (opFamily op)).toNat = (wordXY f 0 0 n).toNat) (hmask : familyMask f = 0xF00F#16) :
    wordXY f (opX op) (opY op) n = op :=
  (eq_wordXY_of_key (and_mask_of_key h (by rw [opFamily_wordXY, hmask]))).symm

/-- `JP V0, nnn` is decoded with its register taken from the top nibble of its address (R82). -/
theorem wellFormed_jpV0_of_op (op : Word) : (Instr.jpV0 (opX op) (opNNN op)).wellFormed = true := by
  have hx := opX_val op
  have hnnn := opNNN_toNat op
  simp only [Instr.wellFormed, beq_iff_eq]
  omega

/-- Settles O4: the key fixes the family's mask, and with it the word, in each of the formats. -/
theorem encodeOfDecodeIsIdentity : Obligations.EncodeOfDecodeIsIdentity := by
  intro op i h
  unfold decodeWord instrOfKey at h
  split at h
  case h_35 => cases h
  all_goals
    rename_i hkey
    cases h
  case h_1 => exact ⟨rfl, (and_mask_of_key (k := 0x00E0#16) (m := 0xFFFF#16) hkey rfl).symm.trans BitVec.and_allOnes⟩
  case h_2 => exact ⟨rfl, (and_mask_of_key (k := 0x00EE#16) (m := 0xFFFF#16) hkey rfl).symm.trans BitVec.and_allOnes⟩
  case h_3 | h_4 | h_20 => exact ⟨rfl, (eq_words_of_key hkey rfl).1.symm⟩
  case h_21 => exact ⟨wellFormed_jpV0_of_op op, (eq_words_of_key hkey rfl).1.symm⟩
  case h_5 | h_6 | h_8 | h_9 | h_22 => exact ⟨rfl, (eq_words_of_key hkey rfl).2.1.symm⟩
  case h_23 => exact ⟨rfl, (eq_words_of_key hkey rfl).2.2.symm⟩
  case h_7 | h_10 | h_11 | h_12 | h_13 | h_14 | h_15 | h_16 | h_17 | h_18 | h_19 =>
    exact ⟨rfl, wordXY_eq_of_key hkey rfl⟩
  all_goals exact ⟨rfl, wordX_eq_of_key hkey rfl⟩

/-! ### The words that decode to nothing (R87) -/

/-- How many low-field values the mask of family `f` tells apart: all 12 bits, `n`, `nn`, or none of them (R85). -/
def keySpan (f : Nat) : Nat :=
  match f with
  | 0x0 => 4096
  | 0x5 => 16
  | 0x8 => 16
  | 0x9 => 16
  | 0xE => 256
  | 0xF => 256
  | _ => 1

/-- The numbers of the level-2 keys that have an instruction, in the order of the table (R86). -/
def dispatchKeys : List Nat :=
  [0x00E0, 0x00EE, 0x1000, 0x2000, 0x3000, 0x4000, 0x5000, 0x6000, 0x7000, 0x8000, 0x8001, 0x8002, 0x8003, 0x8004,
   0x8005, 0x8006, 0x8007, 0x800E, 0x9000, 0xA000, 0xB000, 0xC000, 0xD000, 0xE09E, 0xE0A1, 0xF007, 0xF00A, 0xF015,
   0xF018, 0xF01E, 0xF029, 0xF033, 0xF055, 0xF065]

theorem instrOfKey_eq_none_iff (key op : Word) : instrOfKey key op = none ↔ key.toNat ∉ dispatchKeys := by
  unfold instrOfKey dispatchKeys
  split
  case h_35 => simp_all
  all_goals
    rename_i hkey
    simp [hkey]

/-- A word has its family in its top four bits. -/
theorem and_0xF000 (op : Word) : op &&& 0xF000#16 = wordNNN (opFamily op) 0 := by
  apply BitVec.eq_of_getLsbD_eq
  intro i hi
  rw [BitVec.getLsbD_and, wordNNN_bit, opFamily, BitVec.getLsbD_extractLsb']
  interval_cases i <;> simp

theorem toNat_wordNNN_zero (f : Nibble) : (wordNNN f 0).toNat = 4096 * f.toNat := by
  rw [wordNNN, BitVec.toNat_append, Nat.shiftLeft_eq, Nat.mul_comm]
  exact Nat.or_zero _

theorem toNat_wordXY_zero (f n : Nibble) : (wordXY f 0 0 n).toNat = 4096 * f.toNat + n.toNat := by
  have hbyte : wordXY f 0 0 n = wordX f 0 (n.setWidth 8) := by
    apply BitVec.eq_of_getLsbD_eq
    intro i hi
    rw [wordXY_bit, wordX_bit]
    interval_cases i <;> simp [regField]
  rw [hbyte, toNat_wordX, BitVec.toNat_setWidth_of_le (by decide)]
  rfl

/-- The key of a word as a number: its family, and the low fields that the family's mask keeps. -/
theorem and_mask_toNat (op : Word) : (op &&& familyMask (opFamily op)).toNat =
    4096 * (op.toNat / 4096) + op.toNat % keySpan (op.toNat / 4096) := by
  have hfamily := opFamily_toNat op
  obtain ⟨-, hX, hXY⟩ := eq_words_of_family (and_0xF000 op)
  have hnone : (op &&& 0xF000#16).toNat = 4096 * (op.toNat / 4096) + op.toNat % 1 := by
    rw [and_0xF000, toNat_wordNNN_zero, hfamily, Nat.mod_one, Nat.add_zero]
  have hn : (op &&& 0xF00F#16).toNat = 4096 * (op.toNat / 4096) + op.toNat % 16 := by
    rw [hXY, wordXY_key, toNat_wordXY_zero, hfamily, opN_toNat, ← hXY]
  have hnn : (op &&& 0xF0FF#16).toNat = 4096 * (op.toNat / 4096) + op.toNat % 256 := by
    rw [hX, wordX_key, toNat_wordX, hfamily, opNN_toNat, ← hX]
    rfl
  have hall : (op &&& 0xFFFF#16).toNat = 4096 * (op.toNat / 4096) + op.toNat % 4096 := by
    rw [show op &&& 0xFFFF#16 = op from BitVec.and_allOnes, Nat.div_add_mod]
  unfold familyMask
  rw [hfamily]
  split
  case h_1 h => simpa [h, keySpan] using hall
  case h_2 h | h_3 h | h_4 h => simpa [h, keySpan] using hn
  case h_5 h | h_6 h => simpa [h, keySpan] using hnn
  case h_7 h0 h5 h8 h9 hE hF => rwa [keySpan] <;> assumption

/-- Settles O5: the key's number is compared with the 34 dispatch keys, family by family. -/
theorem unimplementedWordsAreTheTable : Obligations.UnimplementedWordsAreTheTable := by
  intro op
  have hop : ∀ w : Word, op ≠ w ↔ op.toNat ≠ w.toNat := fun w => BitVec.toNat_ne
  have hlt : op.toNat / 4096 < 16 := Nat.div_lt_of_lt_mul op.isLt
  have hdiv := Nat.div_add_mod op.toNat 4096
  rw [decodeWord, instrOfKey_eq_none_iff, and_mask_toNat, hop, hop]
  interval_cases hf : op.toNat / 4096 <;> simp [dispatchKeys, keySpan] <;> omega
end Sys2Proof
end

section
/-! The fetch, the step around one execution, and what a step leaves (40_engine_cycle.md). -/

namespace Sys2Proof

theorem composeOp_toNat (hi lo : Byte) : (composeOp hi lo).toNat = 256 * hi.toNat + lo.toNat := by
  rw [composeOp, BitVec.toNat_append, ← Nat.shiftLeft_add_eq_or_of_lt lo.isLt, Nat.shiftLeft_eq, Nat.mul_comm]

/-- Two bytes decode to what their word decodes to. -/
theorem decodeWord_of_decode_ok {hi lo : Byte} {i : Instr} {rest : List Byte}
    (h : decode [hi, lo] = .ok (i, rest)) : decodeWord (composeOp hi lo) = some i := by
  rw [decode_cons_cons] at h
  cases hword : decodeWord (composeOp hi lo) with
  | some j => rw [hword] at h; cases h; rfl
  | none => rw [hword] at h; cases h

theorem decodeWord_of_decode_error {hi lo : Byte} {r : DecodeReject}
    (h : decode [hi, lo] = .error r) : decodeWord (composeOp hi lo) = none := by
  rw [decode_cons_cons] at h
  cases hword : decodeWord (composeOp hi lo) with
  | some j => rw [hword] at h; cases h
  | none => rfl

end Sys2Proof

namespace Sys2Proof.Machine

/-! ### The fetch (40_engine_cycle.md R113) -/

theorem State.fetchOp_of_peek {s : State} {hi lo : Byte} (hpc : s.pc.toNat + 1 ≤ 0xFFF)
    (hhi : s.peek s.pc.toNat = some hi) (hlo : s.peek (s.pc.toNat + 1) = some lo) :
    s.fetchOp = .ok (composeOp hi lo) :=
  s.fetchOp_ok_iff.mpr ⟨hpc, by rwa [opHi_composeOp], by rwa [opLo_composeOp]⟩

theorem State.readMem_unwritten {s : State} {a : Nat} (ha : a ≤ 0xFFF) (h : s.peek a = none) :
    s.readMem a = .error (.uninitializedRead (.mem a)) := by
  rw [State.readMem_not_readable fun hr => hr.2 h, readFault, if_neg (by omega)]

theorem State.fetchOp_out_of_range {s : State} (h : 0xFFF < s.pc.toNat + 1) :
    s.fetchOp = .error (.fetchOutOfRange s.pc) := if_pos h

/-- Inside the array the fetch reads the byte at `pc` first. -/
theorem State.fetchOp_first_unwritten {s : State} (hpc : s.pc.toNat + 1 ≤ 0xFFF) (h : s.peek s.pc.toNat = none) :
    s.fetchOp = .error (.uninitializedRead (.mem s.pc.toNat)) := by
  unfold State.fetchOp
  rw [if_neg (by omega), State.readMem_unwritten (by omega) h]

theorem State.fetchOp_second_unwritten {s : State} (hpc : s.pc.toNat + 1 ≤ 0xFFF) (hfirst : s.peek s.pc.toNat ≠ none)
    (h : s.peek (s.pc.toNat + 1) = none) : s.fetchOp = .error (.uninitializedRead (.mem (s.pc.toNat + 1))) := by
  obtain ⟨hi, hread⟩ := State.readMem_readable (s := s) ⟨(by omega : s.pc.toNat ≤ 0xFFF), hfirst⟩
  unfold State.fetchOp
  rw [if_neg (by omega), hread, State.readMem_unwritten hpc h]

/-- Settles O10: the fetch answers the composed word, whose value is its two bytes'. -/
theorem fetchComposesBigEndian : Obligations.FetchComposesBigEndian := fun _ hi lo hpc hhi hlo =>
  ⟨composeOp hi lo, State.fetchOp_of_peek hpc hhi hlo, composeOp_toNat hi lo⟩

/-- Settles O11: each fault of the fetch is the step's record. -/
theorem fetchFaultsInOrder : Obligations.FetchFaultsInOrder := fun _ hf hm =>
  ⟨fun hpc => step_fetch_fault hf hm (State.fetchOp_out_of_range hpc),
    fun hpc h => step_fetch_fault hf hm (State.fetchOp_first_unwritten hpc h),
    fun hpc hfirst h => step_fetch_fault hf hm (State.fetchOp_second_unwritten hpc hfirst h)⟩

/-! ### The step around one execution (R114 to R118) -/

/-- Settles O12: the two bytes compose to a word that misses the dispatch table. -/
theorem unimplementedWordFaults : Obligations.UnimplementedWordFaults := fun _ _ _ hf hm hpc hhi hlo hdecode =>
  step_unimplemented hf hm (State.fetchOp_of_peek hpc hhi hlo) (decodeWord_of_decode_error hdecode)

/-- Settles O14: a set record is the first thing a step looks at. -/
theorem faultedBlockTakesNoStep : Obligations.FaultedBlockTakesNoStep := fun _ _ => step_faulted

/-- Settles O9: the step is the settled execution, which ends by the record or by the timers. -/
theorem stepRunsTheDecodedInstruction : Obligations.StepRunsTheDecodedInstruction := by
  rintro s u t hi lo i hf hm hpc hhi hlo hdecode rfl hexec
  have hstep : step s = .next (s.settle t) :=
    (step_exec hf hm (State.fetchOp_of_peek hpc hhi hlo) (decodeWord_of_decode_ok hdecode)).trans
      (congrArg (settleResult s) hexec)
  cases ht : t.fault with
  | none => rw [hstep, s.settle_ok ht, State.finish_eq, ht]
  | some f => exact hstep.trans (congrArg _ (s.settle_fault ht))

/-- Settles O15: every phase answers a next state, the execution too. -/
theorem unfaultedBlockAlwaysSteps : Obligations.UnfaultedBlockAlwaysSteps := by
  intro s hf
  cases hm : s.mode with
  | waitingForKey => exact ⟨_, step_waiting hf hm⟩
  | ready =>
    cases hfetch : s.fetchOp with
    | error r => exact ⟨_, step_fetch_fault hf hm hfetch⟩
    | ok op =>
      cases hdecode : decodeWord op with
      | none => exact ⟨_, step_unimplemented hf hm hfetch hdecode⟩
      | some i =>
        obtain ⟨t, hexec⟩ := exec_next i (s.latchKeys.enterExecute op)
        exact ⟨s.settle t, (step_exec hf hm hfetch hdecode).trans (congrArg (settleResult s) hexec)⟩

/-! ### What the latch, the end of a step and a waiting step leave -/

@[simp] theorem State.finish_params (s : State) : s.finish.params = s.params := rfl
@[simp] theorem State.finish_mode (s : State) : s.finish.mode = s.mode := rfl
@[simp] theorem State.finish_pc (s : State) : s.finish.pc = s.pc := rfl
@[simp] theorem State.finish_stack (s : State) : s.finish.stack = s.stack := rfl
@[simp] theorem State.finish_op (s : State) : s.finish.op = s.op := rfl
@[simp] theorem State.finish_peek (s : State) (a : Nat) : s.finish.peek a = s.peek a := rfl

theorem HoldsV.finish {s : State} {x : Reg} {b : Byte} (h : HoldsV s x b) : HoldsV s.finish x b := h

theorem Frame.refl (s : State) : Frame [] [] s s :=
  ⟨fun _ _ => ⟨rfl, rfl⟩, fun p _ => by
    cases p with
    | index | keys | inputs => exact ⟨rfl, rfl⟩
    | stack | memory => exact fun _ => rfl
    | params | pc | sp | dt | st | display | decodeState | mode | faultRecord => rfl⟩

theorem frame_latchKeys (s : State) : Frame [] [.keys] s s.latchKeys := by
  refine ⟨fun _ _ => ⟨rfl, rfl⟩, fun p hp => ?_⟩
  cases p with
  | keys => exact absurd (List.mem_singleton_self _) hp
  | index | inputs => exact ⟨rfl, rfl⟩
  | stack | memory => exact fun _ => rfl
  | params | pc | sp | dt | st | display | decodeState | mode | faultRecord => rfl

theorem frame_finish (s : State) : Frame [] [.dt, .st, .inputs] s s.finish := by
  refine ⟨fun _ _ => ⟨rfl, rfl⟩, fun p hp => ?_⟩
  cases p with
  | dt | st | inputs => exact absurd (by decide) hp
  | index | keys => exact ⟨rfl, rfl⟩
  | stack | memory => exact fun _ => rfl
  | params | pc | sp | display | decodeState | mode | faultRecord => rfl

/-- What lies between a state and the end of its waiting step, around a body with the frame given. -/
theorem frame_latch_finish {s u : State} {regs : List Reg} {parts : List Part}
    (h : Frame regs parts s.latchKeys u) : Frame regs (parts ++ [.keys, .dt, .st, .inputs]) s u.finish :=
  ((frame_latchKeys s).mono (by simp) (by simp)).trans
    ((h.mono (List.Subset.refl _) (by simp)).trans ((frame_finish u).mono (by simp) (by simp)))

/-- All that a waiting step can change. -/
theorem frame_waitStep (s : State) : Frame [opX s.op] [.mode, .keys, .dt, .st, .inputs] s s.waitStep :=
  frame_latch_finish (frame_waitBody s.latchKeys (opX s.op))

theorem waitStep_stack (s : State) : s.waitStep.stack = s.stack := by
  rw [State.waitStep, State.finish_stack, waitBody_stack, State.latchKeys_eq]

theorem waitStep_fault (s : State) : s.waitStep.fault = s.fault := (frame_waitStep s).2 .faultRecord (by decide)

/-! ### A step that faults (R118) -/

/-- An execution that leaves a new record raised it: it names the `pc` before the fetch and the fetched opcode. -/
theorem exec_record {i : Instr} {s t : State} {f : FaultRecord} (h : exec i s = .next t) (hs : s.fault = none)
    (hf : t.fault = some f) : f.pc = s.pc - 2 ∧ f.op = some s.op := by
  rcases exec_cases h with ⟨r, rfl⟩ | ⟨-, hparts⟩
  · cases hf
    exact ⟨rfl, rfl⟩
  · have hsame : t.fault = s.fault := hparts .faultRecord (by cases i <;> simp [writesParts])
    cases (hf.symm.trans hsame).trans hs

/-- The record of a faulting step: `pc` before the step, and the opcode exactly if one was fetched. -/
theorem step_record {s t : State} {f : FaultRecord} (h : step s = .next t) (ht : t.fault = some f) :
    f.pc = s.pc ∧ ∀ op, f.op = some op ↔ s.fetchOp = .ok op := by
  obtain ⟨hf, ⟨-, rfl⟩ | ⟨-, ⟨r, hfetch, rfl⟩ | ⟨op, hfetch, -, rfl⟩ | ⟨op, i, u, hfetch, -, hexec, rfl⟩⟩⟩ :=
    step_cases h
  · cases ((waitStep_fault s).trans hf).symm.trans ht
  · cases ht
    simp [hfetch]
  · cases ht
    simp [hfetch]
  · rw [State.settle_record] at ht
    obtain ⟨hpc, hop⟩ := exec_record hexec hf ht
    rw [hop, hfetch, hpc]
    exact ⟨BitVec.add_sub_cancel s.pc 2, fun op' => by simp [State.enterExecute]⟩

/-- Settles O13: the rollback and the record's contents. -/
theorem faultingStepRollsBack : Obligations.FaultingStepRollsBack := fun _ _ _ h ht =>
  ⟨step_takes_fault h ht, step_record h ht⟩

/-! ### What no execution, and so no step, changes -/

theorem exec_keeps_params {i : Instr} {s t : State} (h : exec i s = .next t) : t.params = s.params :=
  exec_keeps_part (p := .params) h (by cases i <;> simp [writesParts]) (by simp)

/-- Settles O20: no execution writes the parameters, and the rest of a step does not either. -/
theorem parametersNeverChange : Obligations.ParametersNeverChange := by
  intro s t h
  cases ht : t.fault with
  | some f => rw [step_takes_fault h ht, State.setFault_params]
  | none =>
    rcases step_completes h ht with ⟨-, rfl⟩ | ⟨-, op, i, u, -, -, hexec, rfl⟩
    · exact (frame_waitStep s).2 .params (by decide)
    · rw [State.finish_params, exec_keeps_params hexec]
      rfl

/-- Settles O21: memory stands in `writesParts` of FX33 and FX55 alone. -/
theorem onlyStoresWriteMemory : Obligations.OnlyStoresWriteMemory := by
  intro i s t h hldB hstore
  exact exec_keeps_part (p := .memory) h (by cases i <;> simp_all [writesParts]) (by simp)

/-- Settles O22: the stack stands in `writesParts` of CALL alone, `SP` in those of CALL and RET. -/
theorem onlyCallAndRetUseTheStack : Obligations.OnlyCallAndRetUseTheStack := by
  intro i s t h hcall
  exact ⟨exec_keeps_part (p := .stack) h (by cases i <;> simp_all [writesParts]) (by simp),
    fun hret => exec_keeps_part (p := .sp) h (by cases i <;> simp_all [writesParts]) (by simp)⟩

/-- Settles O23: the display stands in `writesParts` of CLS and DRW alone. -/
theorem onlyClsAndDrwWriteTheDisplay : Obligations.OnlyClsAndDrwWriteTheDisplay := by
  intro i s t h hcls hdrw
  exact exec_keeps_part (p := .display) h (by cases i <;> simp_all [writesParts]) (by simp)

/-! ### The timers (R117; 60_exceptions.md R307) -/

/-- A count-down is one less under `tick`, where the difference of natural numbers saturates at 0. -/
theorem countDown_toNat (tick : Bool) (b : Byte) :
    (countDown tick b).toNat = if tick then b.toNat - 1 else b.toNat := by
  unfold countDown
  cases tick with
  | false => rfl
  | true =>
    by_cases hb : b = 0
    · subst hb; rfl
    · have hpos : 1 ≤ b.toNat := Nat.one_le_iff_ne_zero.mpr fun h => hb (BitVec.eq_of_toNat_eq h)
      simp only [Bool.true_and, bne_iff_ne, ne_eq, hb, not_false_eq_true, if_true]
      exact BitVec.toNat_sub_of_le hpos

/-- The timers after a completed step: those its execution left, counted down by the step's `tick`. -/
theorem finish_timers {s u : State} (hi : u.inputs = s.inputs) (hn : u.inputNo = s.inputNo) :
    u.finish.dt.toNat = (if s.input.tick then u.dt.toNat - 1 else u.dt.toNat) ∧
      u.finish.st.toNat = (if s.input.tick then u.st.toNat - 1 else u.st.toNat) := by
  rw [s.finish_eq_of_inputs hi hn]
  exact ⟨countDown_toNat _ _, countDown_toNat _ _⟩

/-- Only FX15 writes `DT`. -/
theorem exec_keeps_dt {i : Instr} {s t : State} (h : exec i s = .next t) (hi : ∀ x, i ≠ .ldDtVx x) : t.dt = s.dt :=
  exec_keeps_part (p := .dt) h (by cases i <;> simp_all [writesParts]) (by simp)

/-- Only FX18 writes `ST`. -/
theorem exec_keeps_st {i : Instr} {s t : State} (h : exec i s = .next t) (hi : ∀ x, i ≠ .ldStVx x) : t.st = s.st :=
  exec_keeps_part (p := .st) h (by cases i <;> simp_all [writesParts]) (by simp)

theorem exec_ldDtVx_dt {x : Reg} {s t : State} (h : exec (.ldDtVx x) s = .next t) (ht : t.fault = none) :
    t.dt = s.v[x.val] := by
  cases State.readV_completes h ht
  rfl

theorem exec_ldStVx_st {x : Reg} {s t : State} (h : exec (.ldStVx x) s = .next t) (ht : t.fault = none) :
    t.st = s.v[x.val] := by
  cases State.readV_completes h ht
  rfl

/-- Settles O17: the timers are counted down from what the execution left, the old value but for FX15 and FX18. -/
theorem timersCountDownLast : Obligations.TimersCountDownLast := by
  intro s t h ht down
  rcases step_completes h ht with ⟨hwait, rfl⟩ | ⟨hready, op, i, u, hfetch, hdecode, hexec, rfl⟩
  · have hexec := exec_ldVxK_eq_waitBody (opX s.op) s.latchKeys
    obtain ⟨hdt, hst⟩ := finish_timers (s := s) (exec_keeps_inputs hexec).1 (exec_keeps_inputs hexec).2
    rw [exec_keeps_dt hexec (by simp)] at hdt
    rw [exec_keeps_st hexec (by simp)] at hst
    have hnot : s.mode ≠ .ready := by simp [hwait]
    exact ⟨fun _ => hdt, fun _ => hst, fun _ _ hready => absurd hready hnot, fun _ _ hready => absurd hready hnot⟩
  · obtain ⟨hdt, hst⟩ := finish_timers (s := s) (exec_keeps_inputs hexec).1 (exec_keeps_inputs hexec).2
    have hnot : s.mode ≠ .waitingForKey := by simp [hready]
    refine ⟨fun hother => ?_, fun hother => ?_, fun op' x _ hfetch' hdecode' => ?_, fun op' x _ hfetch' hdecode' => ?_⟩
    · rwa [exec_keeps_dt hexec fun x hx => hother.resolve_left hnot op x hfetch (hx ▸ hdecode)] at hdt
    · rwa [exec_keeps_st hexec fun x hx => hother.resolve_left hnot op x hfetch (hx ▸ hdecode)] at hst
    · cases hfetch.symm.trans hfetch'
      cases hdecode.symm.trans hdecode'
      rwa [exec_ldDtVx_dt hexec ht] at hdt
    · cases hfetch.symm.trans hfetch'
      cases hdecode.symm.trans hdecode'
      rwa [exec_ldStVx_st hexec ht] at hst

/-! ### The wait body (R116; 44_input_timers.md R236) -/

theorem waitBody_of_transition {s : State} {k : Reg} (h : FirstTransition s.keysPrev s.keysCur k) (x : Reg) :
    s.waitBody x = (s.writeV x (BitVec.ofNat 8 k.val)).setMode
      (if s.keysPrev[k.val] && !s.keysCur[k.val] then .ready else .waitingForKey) := by
  unfold State.waitBody
  rw [State.firstTransition_eq_some.mpr h]

theorem waitBody_of_no_transition {s : State} (h : ∀ k : Reg, s.keysCur[k.val] = s.keysPrev[k.val]) (x : Reg) :
    s.waitBody x = s.setMode .waitingForKey := by
  unfold State.waitBody
  rw [State.firstTransition_eq_none.mpr h]

/-- The key recorded is the one that changed first. -/
theorem waitBody_holds {s : State} {k : Reg} (h : FirstTransition s.keysPrev s.keysCur k) (x : Reg) :
    HoldsV (s.waitBody x) x (BitVec.ofNat 8 k.val) := by
  rw [waitBody_of_transition h]
  exact HoldsV.writeV s x _

/-- Settles O18: the step is the wait body between the latch and the timers, its register the retained one. -/
theorem waitingStepRunsTheWaitBody : Obligations.WaitingStepRunsTheWaitBody := by
  refine fun s hf hm => ⟨fun k hk => ?_, fun hsame => ?_⟩
  · have hfirst : FirstTransition s.latchKeys.keysPrev s.latchKeys.keysCur k := hk
    refine ⟨_, step_waiting hf hm, (waitBody_holds hfirst _).finish, ?_, frame_waitStep s⟩
    rw [State.waitStep, State.finish_mode, waitBody_mode_of_transition hfirst, State.latchKeys_eq]
    simp
  · have hnone : s.latchKeys.waitBody (opX s.op) = s.latchKeys := by
      rw [waitBody_of_no_transition hsame, ← hm]
      rfl
    refine ⟨_, step_waiting hf hm, ?_, ?_⟩
    · rw [State.waitStep, State.finish_mode]
      exact waitBody_mode_of_no_transition hsame (opX s.op)
    · rw [State.waitStep, hnone]
      exact frame_latch_finish (Frame.refl _)

end Sys2Proof.Machine
end

section
/-! Construction, the load, and the invariants every step keeps (Safety.lean). -/

namespace Sys2Proof.Machine

/-! ### Construction and load (70_reset_and_hazards.md R340, R342) -/

/-- The constructed block holds the font and nothing else. -/
theorem constructed_peek (p : Params) (a : Nat) : (State.constructed p).peek a =
    if p.fontBase.val ≤ a ∧ a < p.fontBase.val + 80 then some (fontByte p (a - p.fontBase.val)) else none := by
  have hbase := p.fontBase.isLt
  have hread : (State.constructed p).peek a = resetByte p a := rfl
  rw [hread, resetByte]
  by_cases ha : a < 0x200
  · rw [if_pos ha]
  · rw [if_neg ha, if_neg (by omega)]

/-- Settles O6: memory and display by their own lemmas, every other field as `State.constructed` writes it. -/
theorem constructionLeavesTheResetValues : Obligations.ConstructionLeavesTheResetValues := by
  refine ⟨fun p => ?_, rfl⟩
  refine ⟨rfl, rfl, rfl, rfl, rfl, rfl, rfl, rfl, fun r => ?_, Display.blank_cell, fun k => ⟨?_, ?_⟩,
    constructed_peek p, rfl⟩
  all_goals exact Vector.getElem_replicate _

/-- Settles O8: the byte at the entry point lies above the font, so it is unwritten. -/
theorem firstStepWithoutProgramFaults : Obligations.FirstStepWithoutProgramFaults := by
  intro p
  have hunwritten : (State.constructed p).peek progBase.toNat = none := by
    have hbase := p.fontBase.isLt
    rw [constructed_peek, show progBase.toNat = 0x200 from rfl, if_neg (by omega)]
  exact step_fetch_fault rfl rfl (State.fetchOp_first_unwritten (show progBase.toNat + 1 ≤ 0xFFF by decide) hunwritten)

/-- Settles O7: the load is one store of at most 3584 bytes into a canonical memory. -/
theorem loadWritesTheProgram : Obligations.LoadWritesTheProgram := by
  intro p rom hlen
  have hload : (State.constructed p).load rom = (State.constructed p).storeBytes 0x200 rom := by
    rw [State.load, List.take_of_length_le hlen]
    rfl
  have hcanonical := State.constructed_wf p
  rw [hload]
  refine ⟨State.storeBytes_peek _ hcanonical 0x200 rom (by omega), frame_storeBytes _ _ _, ?_⟩
  unfold MemoryCanonical
  rw [(frame_storeBytes _ _ _).2 .params (by decide)]
  exact State.storeBytes_wf _ hcanonical 0x200 rom (by omega)

/-- Settles O28: the block starts ready, unfaulted, with no stack entry and no listed byte. -/
theorem constructionMeetsTheInvariants : Obligations.ConstructionMeetsTheInvariants := by
  intro p
  refine ⟨State.constructed_wf p, ⟨?_, ?_, ⟨rfl, rfl⟩, ?_, ?_⟩, ?_⟩
  · exact (by decide : progBase.toNat ≤ 0x10FE)
  · exact fun k hk => absurd hk (Nat.not_lt_zero k)
  · exact fun hwait => (by cases hwait)
  · exact fun f hf => (by cases hf)
  · exact fun hwait => (by cases hwait)

/-! ### A step is a rollback or one execution -/

/-- A step takes a fault and changes the record alone, or ends one execution in the latched state, before or after a
fetch. -/
theorem step_rollback_or_exec {s t : State} (h : step s = .next t) :
    (∃ f, t = s.setFault (some f)) ∨ ∃ i s' u, exec i s' = .next u ∧ t = u.finish ∧
      (s' = s.latchKeys ∨ ∃ op, s' = s.latchKeys.enterExecute op) := by
  cases ht : t.fault with
  | some f => exact .inl ⟨f, step_takes_fault h ht⟩
  | none =>
    rcases step_completes h ht with ⟨-, rfl⟩ | ⟨-, op, i, u, -, -, hexec, rfl⟩
    · exact .inr ⟨_, _, _, exec_ldVxK_eq_waitBody (opX s.op) s.latchKeys, rfl, .inl rfl⟩
    · exact .inr ⟨i, _, u, hexec, rfl, .inr ⟨op, rfl⟩⟩

/-! ### Memory (20_memory.md R60, R63) -/

/-- All that an instruction can do to memory: nothing, or one store inside the array. -/
theorem exec_stores {i : Instr} {s t : State} (h : exec i s = .next t) :
    t.mem = s.mem ∨ ∃ a l, a + l.length ≤ 0x1000 ∧ t.mem = (s.storeBytes a l).mem := by
  have fin (hp : TookFault s t ∨ ∃ a l, a + l.length ≤ 0x1000 ∧ t.mem = (s.storeBytes a l).mem) :
      t.mem = s.mem ∨ ∃ a l, a + l.length ≤ 0x1000 ∧ t.mem = (s.storeBytes a l).mem :=
    hp.imp_left fun ⟨r, e⟩ => by rw [e]; rfl
  cases i with
  | ldB x =>
    refine fin (State.orFault_or h fun b _ h => State.orFault_or h fun a _ h => State.orFault_or h fun _ haddr h => ?_)
    have hbound := checkAddr_ok_iff.mp haddr
    cases h
    exact .inr ⟨a.toNat, bcdDigits b, by simp only [bcdDigits, List.length_cons, List.length_nil]; omega, rfl⟩
  | storeRegs x =>
    refine fin (State.orFault_or h fun a _ h => State.orFault_or h fun _ haddr h => State.orFault_or h fun l hl h => ?_)
    have hbound := checkAddr_ok_iff.mp haddr
    have hlen : l.length = x.val + 1 := by rw [readAll_length hl, List.length_map, regsUpTo_length]
    cases h
    exact .inr ⟨a.toNat, l, by omega, advanceI_mem _ _ _⟩
  | _ => exact .inl ((exec_lists h).1 (by simp [writesParts]))

/-- The bytes after a store inside the array are written where they were, or are the bytes stored. -/
theorem storeBytes_keeps_written {s : State} (hcanonical : MemoryCanonical s) {a : Nat} {l : List Byte}
    (hl : a + l.length ≤ 0x1000) {j : Nat} (hj : s.peek j ≠ none) : (s.storeBytes a l).peek j ≠ none := by
  rw [s.storeBytes_peek hcanonical a l hl]
  split
  · rw [ne_eq, List.getElem?_eq_none_iff]
    omega
  · exact hj

theorem exec_keeps_canonical {i : Instr} {s t : State} (h : exec i s = .next t) (hs : MemoryCanonical s) :
    MemoryCanonical t := by
  unfold MemoryCanonical
  rw [exec_keeps_params h]
  rcases exec_stores h with hmem | ⟨a, l, hl, hmem⟩
  · rw [hmem]
    exact hs
  · rw [hmem]
    exact s.storeBytes_wf hs a l hl

/-- Settles O29: a rollback leaves memory, and an execution makes at most one store, inside the array. -/
theorem stepKeepsMemoryCanonical : Obligations.StepKeepsMemoryCanonical := by
  intro s t hs h
  rcases step_rollback_or_exec h with ⟨f, rfl⟩ | ⟨i, s', u, hexec, rfl, rfl | ⟨op, rfl⟩⟩
  · exact hs
  all_goals
    have hu : MemoryCanonical u := exec_keeps_canonical hexec hs
    exact hu

/-! ### Written marks (10_state.md R35) -/

/-- No mark of a register or of `I` is cleared from `s` to `t`. -/
def MarksKept (s t : State) : Prop :=
  (∀ r : Reg, s.vWritten[r.val] = true → t.vWritten[r.val] = true) ∧ (s.indexWritten = true → t.indexWritten = true)

theorem MarksKept.trans {s t u : State} (h : MarksKept s t) (h' : MarksKept t u) : MarksKept s u :=
  ⟨fun r hr => h'.1 r (h.1 r hr), fun hi => h'.2 (h.2 hi)⟩

theorem MarksKept.of_eq {s t : State} (hv : t.vWritten = s.vWritten) (hi : t.indexWritten = s.indexWritten) :
    MarksKept s t :=
  ⟨fun r hr => by rwa [hv], fun h => hi.trans h⟩

theorem marksKept_of_frame {s t : State} {parts : List Part} (h : Frame [] parts s t) (hi : Part.index ∉ parts) :
    MarksKept s t :=
  ⟨fun r hr => (h.1 r (by simp)).2.trans hr, fun hs => (h.2 .index hi).2.trans hs⟩

theorem marksKept_writeV (s : State) (x : Reg) (b : Byte) : MarksKept s (s.writeV x b) :=
  ⟨fun _ => writeV_keeps_mark x b, id⟩

theorem marksKept_writeV_flag (s : State) (x : Reg) (b : Byte) (f : Bool) :
    MarksKept s ((s.writeV x b).writeFlag f) := (marksKept_writeV s x b).trans (marksKept_writeV _ VF _)

theorem marksKept_logicFlag (s : State) (x : Reg) (b : Byte) : MarksKept s (s.writeV x b).logicFlag := by
  unfold State.logicFlag
  split
  · exact marksKept_writeV_flag s x b false
  · exact marksKept_writeV s x b

theorem marksKept_writeVs (s : State) (l : List (Reg × Byte)) : MarksKept s (s.writeVs l) := by
  obtain ⟨v, w, h⟩ := s.writeVs_eq l
  exact ⟨fun _ => writeVs_keeps_mark l, by rw [h]; exact id⟩

theorem marksKept_writeI (s : State) (w : Word) : MarksKept s (s.writeI w) := ⟨fun _ => id, fun _ => rfl⟩

theorem marksKept_advanceI (s : State) (a : Word) (x : Reg) : MarksKept s (s.advanceI a x) := by
  unfold State.advanceI
  split
  · exact marksKept_writeI s _
  · exact .of_eq rfl rfl

theorem marksKept_waitBody (s : State) (x : Reg) : MarksKept s (s.waitBody x) := by
  unfold State.waitBody
  split
  · exact (marksKept_writeV s x _).trans (marksKept_of_frame (frame_setMode _ _) (by decide))
  · exact marksKept_of_frame (frame_setMode s _) (by decide)

theorem TookFault.marksKept {s t : State} (h : TookFault s t) : MarksKept s t := by
  obtain ⟨r, rfl⟩ := h
  exact .of_eq rfl rfl

/-- No instruction clears a mark of a register or of `I`. -/
theorem exec_marksKept {i : Instr} {s t : State} (h : exec i s = .next t) : MarksKept s t := by
  have fin (hp : TookFault s t ∨ MarksKept s t) : MarksKept s t := hp.elim TookFault.marksKept id
  cases i with
  | ldImm | rnd | ldVxDt => cases h; exact marksKept_writeV s _ _
  | ldI => cases h; exact marksKept_writeI s _
  | ldVxK => cases h; exact marksKept_waitBody s _
  | addImm | ldReg => exact fin (State.orFault_or h fun _ _ h => by cases h; exact .inr (marksKept_writeV s _ _))
  | shr | shl => exact fin (State.orFault_or h fun _ _ h => by cases h; exact .inr (marksKept_writeV_flag s _ _ _))
  | orReg | andReg | xorReg =>
    exact fin (State.orFault_or h fun _ _ h => State.orFault_or h fun _ _ h => by
      cases h; exact .inr (marksKept_logicFlag s _ _))
  | addReg | subReg | subnReg =>
    exact fin (State.orFault_or h fun _ _ h => State.orFault_or h fun _ _ h => by
      cases h; exact .inr (marksKept_writeV_flag s _ _ _))
  | addI =>
    exact fin (State.orFault_or h fun _ _ h => State.orFault_or h fun _ _ h => by
      cases h; exact .inr ((marksKept_writeI s _).trans (marksKept_writeV _ VF _)))
  | ldF =>
    exact fin (State.orFault_or h fun _ _ h => State.orFault_or h fun _ _ h => by
      cases h; exact .inr (marksKept_writeI s _))
  | drw =>
    exact fin (State.orFault_or h fun _ _ h => State.orFault_or h fun _ _ h => State.orFault_or h fun _ _ h => by
      cases h
      exact .inr ((marksKept_of_frame (frame_setDisplay s _) (by decide)).trans (marksKept_writeV _ VF _)))
  | storeRegs =>
    exact fin (State.orFault_or h fun _ _ h => State.orFault_or h fun _ _ h => State.orFault_or h fun _ _ h => by
      cases h
      exact .inr ((marksKept_of_frame (frame_storeBytes s _ _) (by decide)).trans (marksKept_advanceI _ _ _)))
  | loadRegs =>
    exact fin (State.orFault_or h fun _ _ h => State.orFault_or h fun _ _ h => by
      cases h; exact .inr ((marksKept_writeVs s _).trans (marksKept_advanceI _ _ _)))
  | cls | ret | jp | call | seImm | sneImm | seReg | sneReg | jpV0 | skp | sknp | ldDtVx | ldStVx | ldB =>
    exact fin ((exec_cases h).imp_right fun hframe => marksKept_of_frame hframe (by simp [writesParts]))

/-- No instruction makes a written byte unwritten. -/
theorem exec_keeps_written {i : Instr} {s t : State} (h : exec i s = .next t) (hs : MemoryCanonical s) {a : Nat}
    (ha : s.peek a ≠ none) : t.peek a ≠ none := by
  unfold State.peek
  rw [exec_keeps_params h]
  rcases exec_stores h with hmem | ⟨b, l, hl, hmem⟩
  · rw [hmem]
    exact ha
  · rw [hmem, ← (frame_storeBytes s b l).2 .params (by decide)]
    exact storeBytes_keeps_written hs hl ha

/-- Settles O24: a rollback leaves the marks, and no execution clears one. -/
theorem writtenMarksAreNeverCleared : Obligations.WrittenMarksAreNeverCleared := by
  intro s t hs h
  rcases step_rollback_or_exec h with ⟨f, rfl⟩ | ⟨i, s', u, hexec, rfl, rfl | ⟨op, rfl⟩⟩
  · exact ⟨fun _ => id, id, fun _ => id⟩
  all_goals
    obtain ⟨hv, hi⟩ := exec_marksKept hexec
    exact ⟨hv, hi, fun a => exec_keeps_written hexec hs⟩

/-! ### The stack and `pc` (10_state.md R23 to R25; 41_control_flow.md) -/

/-- The stack's part of `ControlSound`: entries in use were pushed and are at most 0x1000; the list is in order and
inside the array. -/
def StackSound (s : State) : Prop :=
  (∀ k, k < s.sp.toNat → ∃ w, cellAt s.stack k = some w ∧ w.toNat ≤ 0x1000) ∧
  rising s.stack = true ∧ s.stack.all (fun c => decide (c.1 < 255)) = true

theorem ControlSound.stackSound {s : State} (h : ControlSound s) : StackSound s := ⟨h.stackBound, h.stackForm⟩

theorem StackSound.congr {s t : State} (h : StackSound s) (hstack : t.stack = s.stack) (hsp : t.sp = s.sp) :
    StackSound t := by
  unfold StackSound
  rw [hstack, hsp]
  exact h

/-- A pop gives back an entry in use. -/
theorem StackSound.stackEntry_le {s : State} (h : StackSound s) {k : Nat} (hk : k < s.sp.toNat) :
    (s.stackEntry k).toNat ≤ 0x1000 := by
  obtain ⟨w, hw, hle⟩ := h.1 k hk
  rw [State.stackEntry, hw]
  exact hle

theorem toNat_sub_one {b : Byte} (h : b ≠ 0) : (b - 1).toNat = b.toNat - 1 :=
  BitVec.toNat_sub_of_le (Nat.one_le_iff_ne_zero.mpr fun hb => h (BitVec.eq_of_toNat_eq hb))

theorem toNat_add_one {b : Byte} (h : b ≠ 255) : (b + 1).toNat = b.toNat + 1 := by
  have hne : b.toNat ≠ 255 := fun hb => h (BitVec.eq_of_toNat_eq hb)
  have hlt := b.isLt
  rw [BitVec.toNat_add]
  exact Nat.mod_eq_of_lt (by simp; omega)

theorem StackSound.pop {s : State} (h : StackSound s) (hsp : s.sp ≠ 0) (w : Word) :
    StackSound ((s.setSp (s.sp - 1)).setPc w) := by
  obtain ⟨hbound, hform⟩ := h
  refine ⟨fun k hk => hbound k ?_, hform⟩
  rw [State.setPc_sp, State.setSp_sp, toNat_sub_one hsp] at hk
  omega

theorem StackSound.push {s : State} (h : StackSound s) (hsp : s.sp ≠ 255) {w : Word} (hw : w.toNat ≤ 0x1000)
    (a : Word) : StackSound ((s.push w).setPc a) := by
  obtain ⟨hbound, hrising, hall⟩ := h
  refine ⟨fun k hk => ?_, rising_putCell hrising _ w, List.all_eq_true.mpr fun c hc => ?_⟩
  · have hk' : k < s.sp.toNat + 1 := toNat_add_one hsp ▸ hk
    have hcell := cellAt_putCell s.stack s.sp.toNat k w
    by_cases hkey : s.sp.toNat = k
    · exact ⟨w, hcell.trans (if_pos hkey), hw⟩
    · obtain ⟨w', hw', hle⟩ := hbound k (by omega)
      exact ⟨w', (hcell.trans (if_neg hkey)).trans hw', hle⟩
  · rcases mem_putCell hc with rfl | hc
    · have hne : s.sp.toNat ≠ 255 := fun hb => hsp (BitVec.eq_of_toNat_eq hb)
      have hlt := s.sp.isLt
      exact decide_eq_true (by simp only; omega)
    · exact List.all_eq_true.mp hall c hc

theorem State.checkPush_ok_iff {s : State} {u : Unit} : s.checkPush = .ok u ↔ s.sp ≠ 255 := by
  unfold State.checkPush
  split <;> simp_all

theorem State.checkPop_ok_iff {s : State} {u : Unit} : s.checkPop = .ok u ↔ s.sp ≠ 0 := by
  unfold State.checkPop
  split <;> simp_all

/-- Every instruction keeps the stack sound: CALL pushes a `pc` inside the array, RET gives up the top entry. -/
theorem exec_stackSound {i : Instr} {s t : State} (h : exec i s = .next t) (hs : StackSound s)
    (hpc : s.pc.toNat ≤ 0x1000) : StackSound t := by
  have fin (hp : TookFault s t ∨ StackSound t) : StackSound t :=
    hp.elim (fun ⟨r, e⟩ => by rw [e]; exact hs) id
  cases i with
  | ret =>
    refine fin (State.orFault_or h fun _ hpop h => ?_)
    cases h
    exact .inr (hs.pop (State.checkPop_ok_iff.mp hpop) _)
  | call nnn =>
    refine fin (State.orFault_or h fun _ hpush h => ?_)
    cases h
    exact .inr (hs.push (State.checkPush_ok_iff.mp hpush) hpc _)
  | _ =>
    exact hs.congr ((exec_lists h).2 (by simp [writesParts]))
      (exec_keeps_part (p := .sp) h (by simp [writesParts]) (by simp))

theorem addrWord_toNat (nnn : Addr) : (addrWord nnn).toNat = nnn.toNat :=
  BitVec.toNat_setWidth_of_le (by decide)

theorem byteWord_toNat (b : Byte) : (byteWord b).toNat = b.toNat :=
  BitVec.toNat_setWidth_of_le (by decide)

/-- The sum of BNNN fits 16 bits, so it is not reduced (R148). -/
theorem addrWord_add_byteWord_toNat (nnn : Addr) (b : Byte) :
    (addrWord nnn + byteWord b).toNat = nnn.toNat + b.toNat := by
  have hnnn := nnn.isLt
  have hb := b.isLt
  rw [BitVec.toNat_add, addrWord_toNat, byteWord_toNat]
  omega

theorem pc_add_two_toNat {w : Word} (h : w.toNat ≤ 0x1000) : (w + 2).toNat = w.toNat + 2 := by
  rw [BitVec.toNat_add]
  exact Nat.mod_eq_of_lt (by simp; omega)

theorem skipIf_pc_le {s : State} (h : s.pc.toNat ≤ 0x1000) (c : Bool) : (s.skipIf c).pc.toNat ≤ 0x10FE := by
  rw [State.skipIf, State.setPc_pc]
  split
  · rw [pc_add_two_toNat h]
    omega
  · omega

/-- The highest `pc` an instruction leaves is BNNN's, 0xFFF + 0xFF (decision D29). -/
theorem exec_pc_le {i : Instr} {s t : State} (h : exec i s = .next t) (hs : StackSound s)
    (hpc : s.pc.toNat ≤ 0x1000) : t.pc.toNat ≤ 0x10FE := by
  have fin (hp : TookFault s t ∨ t.pc.toNat ≤ 0x10FE) : t.pc.toNat ≤ 0x10FE :=
    hp.elim (fun ⟨r, e⟩ => by rw [e]; exact hpc.trans (by omega)) id
  have hjump (nnn : Addr) : (addrWord nnn).toNat ≤ 0x10FE := by
    have := nnn.isLt
    rw [addrWord_toNat]
    omega
  cases i with
  | jp nnn => cases h; exact hjump nnn
  | call nnn => exact fin (State.orFault_or h fun _ _ h => by cases h; exact .inr (hjump nnn))
  | ret =>
    refine fin (State.orFault_or h fun _ hpop h => ?_)
    have hsp := State.checkPop_ok_iff.mp hpop
    have hpos : s.sp.toNat ≠ 0 := fun hb => hsp (BitVec.eq_of_toNat_eq hb)
    have hle := hs.stackEntry_le (k := (s.sp - 1).toNat) (by rw [toNat_sub_one hsp]; omega)
    cases h
    exact .inr (hle.trans (by omega))
  | jpV0 x nnn =>
    refine fin (State.orFault_or h fun a _ h => ?_)
    have hnnn := nnn.isLt
    have ha := a.isLt
    cases h
    rw [State.setPc_pc, addrWord_add_byteWord_toNat]
    exact .inr (by omega)
  | seImm | sneImm => exact fin (State.orFault_or h fun _ _ h => by cases h; exact .inr (skipIf_pc_le hpc _))
  | seReg | sneReg | skp | sknp =>
    exact fin (State.orFault_or h fun _ _ h => State.orFault_or h fun _ _ h => by
      cases h; exact .inr (skipIf_pc_le hpc _))
  | _ =>
    have hsame : t.pc = s.pc := exec_keeps_part (p := .pc) h (by simp [writesParts]) (by simp)
    rw [hsame]
    omega

/-- Only FX0A enters the wait. -/
theorem exec_enters_wait {i : Instr} {s t : State} (h : exec i s = .next t) (hs : s.mode = .ready)
    (ht : t.mode = .waitingForKey) : ∃ x, i = .ldVxK x := by
  by_contra hi
  have hsame := exec_keeps_mode h fun x hx => hi ⟨x, hx⟩
  cases (ht.symm.trans hsame).trans hs

theorem exec_keeps_op {i : Instr} {s t : State} (h : exec i s = .next t) : t.op = s.op :=
  exec_keeps_part (p := .decodeState) h (by cases i <;> simp [writesParts]) (by simp)

/-- Settles O30: a rollback keeps all but the record, the wait body keeps all, and an instruction runs with `pc` at
most 0x1000, since both its bytes lie in the array. -/
theorem stepKeepsControlSound : Obligations.StepKeepsControlSound := by
  intro s t hs h
  cases ht : t.fault with
  | some f =>
    obtain rfl := step_takes_fault h ht
    exact ⟨hs.pcBound, hs.stackBound, hs.stackForm, hs.waiting, fun g hg => by cases hg; exact (step_record h ht).1⟩
  | none =>
    have hrecord : ∀ f, t.fault = some f → f.pc = t.pc := fun f hf => by cases ht.symm.trans hf
    rcases step_completes h ht with ⟨hwait, rfl⟩ | ⟨hready, op, i, u, hfetch, hdecode, hexec, rfl⟩
    · have hpc : s.waitStep.pc = s.pc := (frame_waitStep s).2 .pc (by decide)
      have hop : s.waitStep.op = s.op := (frame_waitStep s).2 .decodeState (by decide)
      have hsp : s.waitStep.sp = s.sp := (frame_waitStep s).2 .sp (by decide)
      have hstack := hs.stackSound.congr (waitStep_stack s) hsp
      exact ⟨hpc ▸ hs.pcBound, hstack.1, hstack.2, fun _ => hop ▸ hs.waiting hwait, hrecord⟩
    · have hin := (s.fetchOp_ok_iff.mp hfetch).1
      have hpc : (s.latchKeys.enterExecute op).pc.toNat ≤ 0x1000 := by
        rw [State.enterExecute, State.setPc_pc]
        exact (pc_add_two_toNat (w := s.pc) (by omega)).trans_le (by omega)
      have hentry : StackSound (s.latchKeys.enterExecute op) := hs.stackSound
      have hstack : StackSound u := exec_stackSound hexec hentry hpc
      have hbound : u.pc.toNat ≤ 0x10FE := exec_pc_le hexec hentry hpc
      refine ⟨hbound, hstack.1, hstack.2, fun hwait => ?_, hrecord⟩
      obtain ⟨x, rfl⟩ := exec_enters_wait hexec hready hwait
      exact ⟨x, (congrArg decodeWord (exec_keeps_op hexec)).trans hdecode⟩

/-- Settles O31: the wait begins in the step that fetched the opcode at `pc - 2`, and no waiting step writes memory. -/
theorem waitingKeepsTheOpcodeInMemory : Obligations.WaitingKeepsTheOpcodeInMemory := by
  intro s t hs h
  cases ht : t.fault with
  | some f =>
    rw [step_takes_fault h ht]
    exact hs
  | none =>
    rcases step_completes h ht with ⟨hwait, rfl⟩ | ⟨hready, op, i, u, hfetch, hdecode, hexec, rfl⟩
    · have hpc : s.waitStep.pc = s.pc := (frame_waitStep s).2 .pc (by decide)
      have hop : s.waitStep.op = s.op := (frame_waitStep s).2 .decodeState (by decide)
      have hpeek : ∀ a, s.waitStep.peek a = s.peek a := (frame_waitStep s).2 .memory (by decide)
      intro _
      rw [hpc, hop, hpeek, hpeek]
      exact hs hwait
    · obtain ⟨hin, hhi, hlo⟩ := s.fetchOp_ok_iff.mp hfetch
      intro hwait
      obtain ⟨x, rfl⟩ := exec_enters_wait hexec hready hwait
      have hop : u.op = op := exec_keeps_op hexec
      have hpc : u.pc = s.pc + 2 := exec_keeps_part (p := .pc) hexec (by simp [writesParts]) (by simp)
      have hpeek : ∀ a, u.peek a = (s.latchKeys.enterExecute op).peek a :=
        exec_keeps_part (p := .memory) hexec (by simp [writesParts]) (by simp)
      rw [State.finish_pc, State.finish_op, State.finish_peek, State.finish_peek, hop, hpc,
        pc_add_two_toNat (by omega), hpeek, hpeek]
      exact ⟨by omega, by omega, hhi, hlo⟩

end Sys2Proof.Machine
end

section
/-! Control transfer, skips, registers, arithmetic, keys and timers: what each instruction does in every state
(41_control_flow.md, 42_register_alu.md, 44_input_timers.md). -/

namespace Sys2Proof.Machine

/-! ### Going on after a read, and taking its fault -/

theorem State.orFault_of_ok {α : Type} {s : State} {e : Except FaultReason α} {a : α} (h : e = .ok a)
    (k : α → Result) : s.orFault e k = k a := by
  rw [h, State.orFault_ok]

theorem State.orFault_of_error {α : Type} {s : State} {e : Except FaultReason α} {r : FaultReason}
    (h : e = .error r) (k : α → Result) : FaultsWith (s.orFault e k) s r := by
  rw [h, State.orFault_error]
  exact s.raise_eq r

/-- A fault raised after a read that succeeds is the fault of the whole. -/
theorem State.orFault_then_faults {α : Type} {s : State} {e : Except FaultReason α} {a : α} {r : FaultReason}
    {k : α → Result} (h : e = .ok a) (hk : FaultsWith (k a) s r) : FaultsWith (s.orFault e k) s r := by
  rwa [State.orFault_of_ok h]

theorem State.orFault_readV_readV_written {s : State} {x y : Reg} (hx : s.vWritten[x.val] = true)
    (hy : s.vWritten[y.val] = true) (k : Byte → Byte → Result) :
    (s.orFault (s.readV x) fun a => s.orFault (s.readV y) fun b => k a b) = k s.v[x.val] s.v[y.val] := by
  rw [State.orFault_readV_written hx, State.orFault_readV_written hy]

/-- Two reads fault on the first register before the second (60_exceptions.md R303). -/
theorem State.orFault_readV_readV_faults {s : State} (x y : Reg) (k : Byte → Byte → Result) :
    let res := s.orFault (s.readV x) fun a => s.orFault (s.readV y) fun b => k a b
    (s.vWritten[x.val] = false → FaultsWith res s (.uninitializedRead (.v x))) ∧
    (s.vWritten[x.val] = true → s.vWritten[y.val] = false → FaultsWith res s (.uninitializedRead (.v y))) :=
  ⟨fun hx => State.orFault_readV_unwritten hx _,
    fun hx hy => State.orFault_then_faults (s.readV_written hx) (State.orFault_readV_unwritten hy _)⟩

/-- Fewer parts may change, where the others are known to be the same. -/
theorem Frame.restrict {s t : State} {regs : List Reg} {parts parts' : List Part} (h : Frame regs parts s t)
    (hsame : ∀ p ∈ parts, p ∉ parts' → p.same s t) : Frame regs parts' s t := by
  refine ⟨h.1, fun p hp => ?_⟩
  by_cases hm : p ∈ parts
  · exact hsame p hm hp
  · exact h.2 p hm

/-! ### Return, jumps, call (41_control_flow.md R141 to R143, R148) -/

theorem State.push_stackEntry (s : State) (w : Word) (k : Nat) :
    (s.push w).stackEntry k = if s.sp.toNat = k then w else s.stackEntry k :=
  s.setStackEntry_stackEntry s.sp.toNat k w

theorem exec_ret_ok {s : State} (h : s.sp ≠ 0) :
    exec .ret s = .next ((s.setSp (s.sp - 1)).setPc (s.stackEntry (s.sp - 1).toNat)) :=
  State.orFault_of_ok (State.checkPop_ok h) _

theorem exec_call_ok {s : State} (h : s.sp ≠ 255) (nnn : Addr) :
    exec (.call nnn) s = .next ((s.push s.pc).setPc (addrWord nnn)) :=
  State.orFault_of_ok (State.checkPush_ok h) _

/-- Settles O32: the check of `SP` decides between the pop and the fault. -/
theorem retPopsTheReturnAddress : Obligations.RetPopsTheReturnAddress := by
  refine fun s => ⟨fun hsp => ⟨_, exec_ret_ok hsp, ?_, ?_, frame_pop s _ _⟩, fun hsp => ?_⟩
  · exact toNat_sub_one hsp
  · rw [State.setPc_pc, toNat_sub_one hsp]
  · exact State.orFault_of_error (State.checkPop_error hsp) _

/-- Settles O33: the address fits the wider word. -/
theorem jpSetsThePc : Obligations.JpSetsThePc := fun nnn s =>
  ⟨_, exec_jp nnn s, addrWord_toNat nnn, frame_setPc s _⟩

/-- Settles O34: the check of `SP` decides between the push and the fault. -/
theorem callPushesTheReturnAddress : Obligations.CallPushesTheReturnAddress := by
  refine fun nnn s => ⟨fun hsp => ?_, fun hsp => State.orFault_of_error (State.checkPush_error hsp) _⟩
  refine ⟨_, exec_call_ok hsp nnn, addrWord_toNat nnn, toNat_add_one hsp, ?_, fun k hk => ?_, frame_push s _ _⟩
  · exact (s.push_stackEntry s.pc _).trans (if_pos rfl)
  · exact (s.push_stackEntry s.pc k).trans (if_neg hk.symm)

/-- Settles O35: the CALL leaves an `SP` that is not 0, and its entry is the one the RET pops. -/
theorem retUndoesCall : Obligations.RetUndoesCall := by
  intro nnn s hsp
  have hpop : s.sp + 1 - 1 = s.sp := BitVec.add_sub_cancel s.sp 1
  have hne : s.sp + 1 ≠ 0 := fun h => by
    have hzero := toNat_add_one hsp
    rw [h] at hzero
    simp at hzero
  have hpc : (s.push s.pc).stackEntry (s.sp + 1 - 1).toNat = s.pc := by
    rw [hpop, s.push_stackEntry, if_pos rfl]
  refine ⟨_, _, exec_call_ok hsp nnn, exec_ret_ok hne, hpc, hpop, ?_⟩
  refine Frame.restrict (parts := [.pc, .sp, .stack]) ((frame_push s s.pc (addrWord nnn)).trans
    ((frame_pop _ _ _).mono (by simp) (by simp))) fun p hp hstack => ?_
  have hcases : p = .pc ∨ p = .sp := by simp_all
  rcases hcases with rfl | rfl
  · exact hpc
  · exact hpop

/-- Settles O38: the register `jumpReg` names is read, and the sum fits the word. -/
theorem jumpWithOffset : Obligations.JumpWithOffset := fun x nnn s =>
  ⟨fun hr => ⟨_, State.orFault_readV_written (x := s.jumpReg x) hr _, addrWord_add_byteWord_toNat nnn _,
      frame_setPc s _⟩,
    fun hr => State.orFault_readV_unwritten (x := s.jumpReg x) hr _⟩

/-! ### Skips (41_control_flow.md R140, R144 to R147; 44_input_timers.md R230, R231) -/

/-- A skip on a condition. -/
theorem skipIf_pc_of_iff {s : State} {c : Bool} {p : Prop} [Decidable p] (h : c = true ↔ p) :
    (s.skipIf c).pc = if p then s.pc + 2 else s.pc := if_congr h rfl rfl

/-- A skip on the negation of a condition. -/
theorem skipIf_pc_of_iff_not {s : State} {c : Bool} {p : Prop} [Decidable p] (h : c = true ↔ ¬ p) :
    (s.skipIf c).pc = if p then s.pc else s.pc + 2 := (if_congr h rfl rfl).trans (ite_not p _ _)

theorem frame_skipIf (s : State) (c : Bool) : Frame [] [.pc] s (s.skipIf c) := frame_setPc s _

/-- Settles O36: one read, then a skip on the condition or on its negation. -/
theorem immediateSkips : Obligations.ImmediateSkips := by
  refine fun x nn s => ⟨fun hx => ⟨?_, ?_⟩, fun hx => ⟨?_, ?_⟩⟩
  · exact ⟨_, State.orFault_readV_written hx _, skipIf_pc_of_iff beq_iff_eq, frame_skipIf s _⟩
  · exact ⟨_, State.orFault_readV_written hx _, skipIf_pc_of_iff_not bne_iff_ne, frame_skipIf s _⟩
  · exact State.orFault_readV_unwritten hx _
  · exact State.orFault_readV_unwritten hx _

/-- Settles O37: two reads, then a skip on the condition or on its negation. -/
theorem registerSkips : Obligations.RegisterSkips := by
  refine fun x y s => ⟨fun hx hy => ⟨?_, ?_⟩, ?_⟩
  · exact ⟨_, State.orFault_readV_readV_written hx hy _, skipIf_pc_of_iff beq_iff_eq, frame_skipIf s _⟩
  · exact ⟨_, State.orFault_readV_readV_written hx hy _, skipIf_pc_of_iff_not bne_iff_ne, frame_skipIf s _⟩
  · simp only [List.forall_mem_cons, List.not_mem_nil, false_imp_iff, implies_true, and_true]
    exact ⟨State.orFault_readV_readV_faults x y _, State.orFault_readV_readV_faults x y _⟩

/-- A key skip goes on with the key its register names. -/
theorem orFault_key_ok {s : State} {x k : Reg} (hx : s.vWritten[x.val] = true) (hk : s.v[x.val].toNat = k.val)
    (f : Reg → Result) : (s.orFault (s.readV x) fun a => s.orFault (keyIndex a) fun k => f k) = f k := by
  have hkey : (⟨s.v[x.val].toNat, hk ▸ k.isLt⟩ : Reg) = k := Fin.ext hk
  rw [State.orFault_readV_written hx, State.orFault_of_ok (keyIndex_ok (hk ▸ k.isLt)), hkey]

theorem orFault_key_faults {s : State} (x : Reg) (f : Reg → Result) :
    let res := s.orFault (s.readV x) fun a => s.orFault (keyIndex a) fun k => f k
    (s.vWritten[x.val] = false → FaultsWith res s (.uninitializedRead (.v x))) ∧
    (s.vWritten[x.val] = true → 15 < s.v[x.val].toNat → FaultsWith res s (.keyIndexOutOfRange s.v[x.val])) :=
  ⟨fun hx => State.orFault_readV_unwritten hx _,
    fun hx hk => State.orFault_then_faults (s.readV_written hx) (State.orFault_of_error (keyIndex_error hk) _)⟩

/-- Settles O52: the read, the key's range, then a skip on the key or on its negation. -/
theorem keySkips : Obligations.KeySkips := by
  refine fun x s => ⟨fun k hx hk => ⟨?_, ?_⟩, ?_⟩
  · exact ⟨_, orFault_key_ok hx hk _, skipIf_pc_of_iff Iff.rfl, frame_skipIf s _⟩
  · exact ⟨_, orFault_key_ok hx hk _, skipIf_pc_of_iff_not (by simp), frame_skipIf s _⟩
  · simp only [List.forall_mem_cons, List.not_mem_nil, false_imp_iff, implies_true, and_true]
    exact ⟨orFault_key_faults x _, orFault_key_faults x _⟩

/-! ### Register copy, logic, arithmetic, shifts (42_register_alu.md) -/

/-- Settles O41: one read, then one register write. -/
theorem registerCopy : Obligations.RegisterCopy := fun x _ s =>
  ⟨fun hy => ⟨_, State.orFault_readV_written hy _, HoldsV.writeV s x _, frame_writeV s x _⟩,
    fun hy => State.orFault_readV_unwritten hy _⟩

/-- A result in another register than `VF` is still held after the write of the flag. -/
theorem HoldsV.writeV_writeFlag (s : State) {x : Reg} (b : Byte) (f : Bool) (hx : x ≠ VF) :
    HoldsV ((s.writeV x b).writeFlag f) x b := (HoldsV.writeV s x b).writeV_other _ hx

/-- What OR, AND and XOR leave, in both settings of `Q_LOGIC`. -/
theorem logicFlag_result (s : State) (x : Reg) (b : Byte) : let t := (s.writeV x b).logicFlag
    (s.qLogic = true → HoldsV t VF 0 ∧ (x ≠ VF → HoldsV t x b) ∧ Frame [x, VF] [] s t) ∧
    (s.qLogic = false → HoldsV t x b ∧ Frame [x] [] s t) := by
  refine ⟨fun hq => ?_, fun hq => ?_⟩
  · rw [State.logicFlag_set (s := s.writeV x b) hq]
    exact ⟨HoldsV.writeV _ VF 0, HoldsV.writeV_writeFlag s b false, frame_writeV_flag s x b false⟩
  · rw [State.logicFlag_clear (s := s.writeV x b) (Bool.eq_false_iff.mp hq)]
    exact ⟨HoldsV.writeV s x b, frame_writeV s x b⟩

/-- Settles O42: two reads, then what the logic flag leaves. -/
theorem bitwiseLogic : Obligations.BitwiseLogic := by
  intro x y s hx hy
  simp only [List.forall_mem_cons, List.not_mem_nil, false_imp_iff, implies_true, and_true]
  exact ⟨⟨_, State.orFault_readV_readV_written hx hy _, logicFlag_result s x _⟩,
    ⟨_, State.orFault_readV_readV_written hx hy _, logicFlag_result s x _⟩,
    ⟨_, State.orFault_readV_readV_written hx hy _, logicFlag_result s x _⟩⟩

/-- The difference of two bytes as a number, reduced mod 256. -/
theorem byte_sub_eq_ofNat (a b : Byte) : a - b = BitVec.ofNat 8 ((256 + a.toNat - b.toNat) % 256) := by
  have ha := a.isLt
  have hb := b.isLt
  apply BitVec.eq_of_toNat_eq
  rw [BitVec.toNat_sub, BitVec.toNat_ofNat]
  omega

/-- Settles O43: two reads, the result mod 256, then the flag. -/
theorem addAndSubtract : Obligations.AddAndSubtract := by
  intro x y s hx hy a b
  refine ⟨?_, ?_, ?_⟩
  · rw [← byte_add_eq_ofNat]
    exact ⟨_, State.orFault_readV_readV_written hx hy _, HoldsV.writeV_writeFlag s _ _,
      HoldsV.writeFlag _ carryFlag_iff, frame_writeV_flag s x _ _⟩
  · rw [← byte_sub_eq_ofNat]
    exact ⟨_, State.orFault_readV_readV_written hx hy _, HoldsV.writeV_writeFlag s _ _,
      HoldsV.writeFlag _ positiveFlag_iff, frame_writeV_flag s x _ _⟩
  · rw [← byte_sub_eq_ofNat]
    exact ⟨_, State.orFault_readV_readV_written hx hy _, HoldsV.writeV_writeFlag s _ _,
      HoldsV.writeFlag _ positiveFlag_iff, frame_writeV_flag s x _ _⟩

/-- Settles O44: each of the six is two reads, then the rest. -/
theorem twoRegisterReadFaults : Obligations.TwoRegisterReadFaults := by
  intro x y s
  simp only [List.forall_mem_cons, List.not_mem_nil, false_imp_iff, implies_true, and_true]
  have hfaults := State.orFault_readV_readV_faults (s := s) x y
  exact ⟨hfaults _, hfaults _, hfaults _, hfaults _, hfaults _, hfaults _⟩

theorem byte_shiftRight_one (a : Byte) : a >>> 1 = BitVec.ofNat 8 (a.toNat / 2) := by
  have ha := a.isLt
  apply BitVec.eq_of_toNat_eq
  rw [BitVec.toNat_ushiftRight, BitVec.toNat_ofNat, Nat.shiftRight_one]
  omega

theorem byte_shiftLeft_one (a : Byte) : a <<< 1 = BitVec.ofNat 8 (2 * a.toNat % 256) := by
  apply BitVec.eq_of_toNat_eq
  rw [BitVec.toNat_shiftLeft, BitVec.toNat_ofNat, Nat.shiftLeft_eq]
  omega

/-- A one-bit number as a flag. -/
theorem ofNat_bit_eq_ite {n : Nat} (h : n < 2) {p : Prop} [Decidable p] (hp : p ↔ n = 1) :
    BitVec.ofNat 8 n = if p then 1 else 0 := by
  by_cases hn : n = 1
  · rw [if_pos (hp.mpr hn), hn]
    rfl
  · rw [if_neg fun h => hn (hp.mp h), show n = 0 by omega]
    rfl

/-- Settles O45: the read of `shiftReg`, the shifted byte as a number, then the bit moved out. -/
theorem shiftsByOne : Obligations.ShiftsByOne := by
  intro x y s r a
  have ha : a < 256 := s.v[r.val].isLt
  refine ⟨fun hr => ⟨?_, ?_⟩, fun hr => ⟨?_, ?_⟩⟩
  · rw [← byte_shiftRight_one, ofNat_bit_eq_ite (p := a % 2 = 1) (by omega) Iff.rfl]
    exact ⟨_, State.orFault_readV_written (x := s.shiftReg x y) hr _, HoldsV.writeV_writeFlag s _ _,
      HoldsV.writeFlag _ lowBit_iff, frame_writeV_flag s x _ _⟩
  · rw [← byte_shiftLeft_one, ofNat_bit_eq_ite (p := a ≥ 128) (by omega) (by omega)]
    exact ⟨_, State.orFault_readV_written (x := s.shiftReg x y) hr _, HoldsV.writeV_writeFlag s _ _,
      HoldsV.writeFlag _ highBit_iff, frame_writeV_flag s x _ _⟩
  · exact State.orFault_readV_unwritten (x := s.shiftReg x y) hr _
  · exact State.orFault_readV_unwritten (x := s.shiftReg x y) hr _

/-! ### Index load, random, clear (R183, R184; 43_display.md R210) -/

/-- Settles O46: the effect is one write of `I`. -/
theorem loadIndex : Obligations.LoadIndex := fun nnn s =>
  ⟨_, exec_ldI nnn s, ⟨(BitVec.ofNat_toNat 16 nnn).symm, rfl⟩, frame_writeI s _⟩

/-- Settles O47: the effect is one register write. -/
theorem randomByteMasked : Obligations.RandomByteMasked := fun x nn s =>
  ⟨_, exec_rnd x nn s, HoldsV.writeV s x _, frame_writeV s x _⟩

/-- Settles O48: the effect is the blank display. -/
theorem clsClearsEveryCell : Obligations.ClsClearsEveryCell := fun s =>
  ⟨_, exec_cls s, Display.blank_cell, frame_setDisplay s _⟩

/-! ### Timers and the key wait (44_input_timers.md R232 to R236) -/

/-- Settles O53: one write each, after the read of `V[x]` where there is one. -/
theorem timerRegisterMoves : Obligations.TimerRegisterMoves := by
  refine fun x s => ⟨?_, fun hx => ⟨?_, ?_⟩, fun hx => ⟨?_, ?_⟩⟩
  · exact ⟨_, exec_ldVxDt x s, HoldsV.writeV s x _, frame_writeV s x _⟩
  · exact ⟨_, State.orFault_readV_written hx _, rfl, frame_setDt s _⟩
  · exact ⟨_, State.orFault_readV_written hx _, rfl, frame_setSt s _⟩
  · exact State.orFault_readV_unwritten hx _
  · exact State.orFault_readV_unwritten hx _

/-- Settles O54: the wait body's two cases. -/
theorem keyWaitRecordsTheFirstTransition : Obligations.KeyWaitRecordsTheFirstTransition := by
  refine fun x s => ⟨fun k hk => ?_, fun hsame => ?_⟩
  · refine ⟨_, exec_ldVxK_eq_waitBody x s, waitBody_holds hk x, ?_, frame_waitBody s x⟩
    rw [waitBody_mode_of_transition hk]
    simp
  · refine ⟨_, exec_ldVxK_eq_waitBody x s, waitBody_mode_of_no_transition hsame x, ?_⟩
    rw [waitBody_of_no_transition hsame]
    exact frame_setMode s _

/-! ### Index arithmetic (45_index_memory.md R260, R261) -/

theorem State.orFault_readI_written {s : State} (h : s.indexWritten = true) (k : Word → Result) :
    s.orFault s.readI k = k s.index := State.orFault_of_ok (s.readI_written h) k

theorem State.orFault_readI_unwritten {s : State} (h : s.indexWritten = false) (k : Word → Result) :
    FaultsWith (s.orFault s.readI k) s (.uninitializedRead .index) := State.orFault_of_error (s.readI_unwritten h) k

theorem index_add_eq_ofNat (i w : Word) : i + w = BitVec.ofNat 16 ((i.toNat + w.toNat) % 65536) := by
  rw [← BitVec.toNat_add i w, BitVec.ofNat_toNat, BitVec.setWidth_eq]

/-- Five bytes a glyph, of the low nibble's glyph. -/
theorem glyphOffset_toNat (b : Byte) : (glyphOffset b).toNat = 5 * (b.toNat % 16) := by
  have hnibble : (b &&& 0x0F).toNat = b.toNat % 16 := by
    rw [BitVec.toNat_and]
    exact Nat.and_two_pow_sub_one_eq_mod b.toNat 4
  rw [glyphOffset, BitVec.toNat_mul, byteWord_toNat, hnibble]
  exact Nat.mod_eq_of_lt (by simp; omega)

theorem exec_addI_written {x : Reg} {s : State} (hi : s.indexWritten = true) (hx : s.vWritten[x.val] = true) :
    exec (.addI x) s =
      .next ((s.writeI (s.index + byteWord s.v[x.val])).writeFlag (indexFlag s.index s.v[x.val])) :=
  (State.orFault_readI_written hi _).trans (State.orFault_readV_written hx _)

theorem exec_ldF_written {x : Reg} {s : State} (hx : s.vWritten[x.val] = true) (hi : s.indexWritten = true) :
    exec (.ldF x) s = .next (s.writeI (s.index + glyphOffset s.v[x.val])) :=
  (State.orFault_readV_written hx _).trans (State.orFault_readI_written hi _)

/-- Settles O55: two reads, then the write of `I` and the flag. -/
theorem addToIndex : Obligations.AddToIndex := by
  refine fun x s => ⟨fun hi hx => ?_, fun hi => State.orFault_readI_unwritten hi _, fun hi hx => ?_⟩
  · rw [← byteWord_toNat s.v[x.val], ← index_add_eq_ofNat, byteWord_toNat]
    exact ⟨_, exec_addI_written hi hx, ⟨rfl, rfl⟩, HoldsV.writeFlag _ indexFlag_iff,
      ((frame_writeI s _).mono (by simp) (List.Subset.refl _)).trans
        ((frame_writeV _ VF _).mono (List.Subset.refl _) (by simp))⟩
  · exact State.orFault_then_faults (s.readI_written hi) (State.orFault_readV_unwritten hx _)

/-- Settles O56: two reads, then the write of `I`. -/
theorem fontAddressIsAdded : Obligations.FontAddressIsAdded := by
  refine fun x s => ⟨fun hx hi => ?_, fun hx => State.orFault_readV_unwritten hx _, fun hx hi => ?_⟩
  · rw [← glyphOffset_toNat, ← index_add_eq_ofNat]
    exact ⟨_, exec_ldF_written hx hi, ⟨rfl, rfl⟩, frame_writeI s _⟩
  · exact State.orFault_then_faults (s.readV_written hx) (State.orFault_readI_unwritten hi _)

end Sys2Proof.Machine
end

section
/-! The draw (43_display.md R211, R212): the cells inverted, the collision flag, and the faults. -/

namespace Sys2Proof.Machine

/-! ### The rows of a sprite -/

theorem State.spriteRows_of_ne_zero {s : State} {n : Nibble} (hn : n ≠ 0) (hi : s.indexWritten = true) :
    s.spriteRows n = s.readBytes s.index.toNat n.toNat := by
  unfold State.spriteRows
  rw [if_neg hn, s.readI_written hi]

theorem State.spriteRows_index_unwritten {s : State} {n : Nibble} (hn : n ≠ 0) (hi : s.indexWritten = false) :
    s.spriteRows n = .error (.uninitializedRead .index) := by
  unfold State.spriteRows
  rw [if_neg hn, s.readI_unwritten hi]

theorem SpriteBytes.spriteRows {s : State} {n : Nibble} {rows : List Byte} (h : SpriteBytes s n rows) :
    s.spriteRows n = .ok rows := by
  obtain ⟨hlen, hindex, hbytes⟩ := h
  refine State.spriteRows_ok_iff.mpr ?_
  by_cases hn : n = 0
  · exact .inl ⟨hn, List.eq_nil_of_length_eq_zero (by rw [hlen, hn]; rfl)⟩
  · exact .inr ⟨hn, hindex hn, State.readBytes_ok_iff.mpr ⟨hlen, hbytes⟩⟩

theorem SpriteBytes.length_le {s : State} {n : Nibble} {rows : List Byte} (h : SpriteBytes s n rows) :
    rows.length ≤ 32 := by
  have hlen := h.1
  have hn := n.isLt
  omega

/-! ### The state after a draw -/

/-- The state after drawing `rows` at (`cx`, `cy`): what `execDrw` answers when nothing faults (`exec_drw_ok`). -/
def State.drawn (s : State) (cx cy : Nat) (rows : List Byte) : State :=
  let drawn := drawCells s.display false (spriteCells s.qClip cx cy 0 rows)
  (s.setDisplay drawn.1).writeFlag drawn.2

theorem exec_drw_ok {x y : Reg} {n : Nibble} {rows : List Byte} {s : State} (hx : s.vWritten[x.val] = true)
    (hy : s.vWritten[y.val] = true) (hrows : s.spriteRows n = .ok rows) :
    exec (.drw x y n) s = .next (s.drawn s.v[x.val].toNat s.v[y.val].toNat rows) :=
  (State.orFault_readV_readV_written hx hy _).trans (State.orFault_of_ok hrows _)

/-- A cell is inverted exactly if the sprite covers it. -/
theorem drawn_cell (s : State) (cx cy : Nat) {rows : List Byte} (hlen : rows.length ≤ 32) (px : Fin 64) (py : Fin 32) :
    (SpriteCovers s.qClip cx cy rows px py → (s.drawn cx cy rows).display.cell px py = !s.display.cell px py) ∧
    (¬ SpriteCovers s.qClip cx cy rows px py → (s.drawn cx cy rows).display.cell px py = s.display.cell px py) := by
  have hcell := (drawCells_spec _ (spriteCells_nodup s.qClip cx cy 0 rows hlen) s.display false).1 px py
  rw [spriteCovers_iff]
  refine ⟨fun hm => hcell.trans ?_, fun hm => hcell.trans ?_⟩
  · rw [decide_eq_true hm, Bool.xor_true]
  · rw [decide_eq_false hm, Bool.xor_false]

/-- The flag is 1 exactly if a cell went from 1 to 0. -/
theorem drawn_flag (s : State) (cx cy : Nat) {rows : List Byte} (hlen : rows.length ≤ 32) :
    HoldsV (s.drawn cx cy rows) VF
      (if ∃ px py, s.display.cell px py = true ∧ (s.drawn cx cy rows).display.cell px py = false then 1 else 0) :=
  HoldsV.writeFlag _ (drawCells_hit_iff (spriteCells_nodup s.qClip cx cy 0 rows hlen) s.display)

theorem drawn_flag_eq_one_iff (s : State) (cx cy : Nat) {rows : List Byte} (hlen : rows.length ≤ 32) :
    (s.drawn cx cy rows).v[15] = 1 ↔
      ∃ px py, s.display.cell px py = true ∧ (s.drawn cx cy rows).display.cell px py = false :=
  (State.writeFlag_VF_eq_one_iff _ _).trans
    (drawCells_hit_iff (spriteCells_nodup s.qClip cx cy 0 rows hlen) s.display)

theorem frame_drawn (s : State) (cx cy : Nat) (rows : List Byte) : Frame [VF] [.display] s (s.drawn cx cy rows) :=
  ((frame_setDisplay s _).mono (by simp) (List.Subset.refl _)).trans
    ((frame_writeV _ VF _).mono (List.Subset.refl _) (by simp))

/-- Settles O49: the cells by `drawn_cell`, the flag by `drawn_flag`. -/
theorem drwInvertsTheCoveredCells : Obligations.DrwInvertsTheCoveredCells := by
  intro x y n rows s hx hy hrows
  have hlen := hrows.length_le
  have hcell := drawn_cell s s.v[x.val].toNat s.v[y.val].toNat hlen
  have hflag := drawn_flag s s.v[x.val].toNat s.v[y.val].toNat hlen
  refine ⟨_, exec_drw_ok hx hy hrows.spriteRows, fun px py => (hcell px py).1, fun px py => (hcell px py).2,
    fun hhit => ?_, fun hkept => ?_, frame_drawn s _ _ _⟩
  · rwa [if_pos hhit] at hflag
  · rwa [if_neg fun ⟨px, py, hset, hclear⟩ => by cases hclear.symm.trans (hkept px py hset)] at hflag

/-- A second draw of the same sprite inverts the same cells back. -/
theorem drawn_drawn_display (s : State) (cx cy : Nat) {rows : List Byte} (hlen : rows.length ≤ 32) :
    ((s.drawn cx cy rows).drawn cx cy rows).display = s.display := by
  refine Display.ext_cell fun px py => ?_
  obtain ⟨hin, hout⟩ := drawn_cell s cx cy hlen px py
  obtain ⟨hin', hout'⟩ := drawn_cell (s.drawn cx cy rows) cx cy hlen px py
  by_cases hcovers : SpriteCovers s.qClip cx cy rows px py
  · rw [hin' hcovers, hin hcovers, Bool.not_not]
  · rw [hout' hcovers, hout hcovers]

/-- Settles O50: the first draw leaves coordinates, `I` and memory, so the second draws the same cells. -/
theorem drawingTwiceRestoresTheDisplay : Obligations.DrawingTwiceRestoresTheDisplay := by
  intro x y n rows s hxVF hyVF hx hy hrows
  have hlen := hrows.length_le
  have hkept (r : Reg) (hr : r ≠ VF) := (frame_drawn s s.v[x.val].toNat s.v[y.val].toNat rows).1 r (by simpa using hr)
  have hsecond := exec_drw_ok (rows := rows) (n := n) ((hkept x hxVF).2.trans hx) ((hkept y hyVF).2.trans hy)
    (SpriteBytes.spriteRows hrows)
  rw [(hkept x hxVF).1, (hkept y hyVF).1] at hsecond
  have hback := drawn_drawn_display s s.v[x.val].toNat s.v[y.val].toNat hlen
  refine ⟨_, _, exec_drw_ok hx hy hrows.spriteRows, hsecond, hback, ?_⟩
  rw [drawn_flag_eq_one_iff _ _ _ hlen, hback]
  exact exists₂_congr fun _ _ => And.comm

/-- Settles O51: the reads come in the order written, and the rows' own faults are the index and the first byte. -/
theorem drwReadFaults : Obligations.DrwReadFaults := by
  intro x y n s
  obtain ⟨hfirst, hsecond⟩ := State.orFault_readV_readV_faults (s := s) x y _
  refine ⟨hfirst, hsecond, fun hx hy hn hi => ?_, fun r hx hy hi hr hbefore hfault => ?_⟩
  · exact State.orFault_then_faults (s.readV_written hx) (State.orFault_then_faults (s.readV_written hy)
      (State.orFault_of_error (State.spriteRows_index_unwritten hn hi) _))
  · have hn : n ≠ 0 := fun h => by simp [h] at hr
    have hrows := (State.spriteRows_of_ne_zero hn hi).trans (State.readBytes_first_fault hr hbefore hfault)
    exact State.orFault_then_faults (s.readV_written hx) (State.orFault_then_faults (s.readV_written hy)
      (State.orFault_of_error hrows _))

end Sys2Proof.Machine
end

section
/-! The stores and the load at `I` (45_index_memory.md R262 to R264). -/

namespace Sys2Proof.Machine

/-! ### The BCD store -/

theorem exec_ldB_ok {x : Reg} {s : State} (hx : s.vWritten[x.val] = true) (hi : s.indexWritten = true)
    (haddr : s.index.toNat + 2 ≤ 0xFFF) :
    exec (.ldB x) s = .next (s.storeBytes s.index.toNat (bcdDigits s.v[x.val])) :=
  ((State.orFault_readV_written hx _).trans (State.orFault_readI_written hi _)).trans
    (State.orFault_of_ok (checkAddr_ok haddr) _)

/-- A byte is below 1000, so its hundreds need no remainder. -/
theorem bcdDigits_eq (b : Byte) : bcdDigits b =
    [BitVec.ofNat 8 (b.toNat / 100), BitVec.ofNat 8 (b.toNat % 100 / 10), BitVec.ofNat 8 (b.toNat % 10)] := by
  have hb := b.isLt
  rw [bcdDigits, Nat.mod_eq_of_lt (by omega : b.toNat < 1000)]

/-- The byte stored at place `k`. -/
theorem storeBytes_peek_at {s : State} (hs : MemoryCanonical s) {a : Nat} {l : List Byte} (hl : a + l.length ≤ 0x1000)
    {k : Nat} (hk : k < l.length) : (s.storeBytes a l).peek (a + k) = some l[k] := by
  rw [s.storeBytes_peek hs a l hl, if_pos (by omega), Nat.add_sub_cancel_left, List.getElem?_eq_getElem hk]

/-- The bytes outside a store are unchanged. -/
theorem storeBytes_peek_outside {s : State} (hs : MemoryCanonical s) {a : Nat} {l : List Byte}
    (hl : a + l.length ≤ 0x1000) {j : Nat} (hj : j < a ∨ a + l.length ≤ j) : (s.storeBytes a l).peek j = s.peek j := by
  rw [s.storeBytes_peek hs a l hl, if_neg (by omega)]

/-- Settles O57: the digits by place, the other bytes by the store's bounds, the faults in the order of the reads. -/
theorem bcdStore : Obligations.BcdStore := by
  refine fun x s hs => ⟨fun hx hi haddr => ?_, fun hx => State.orFault_readV_unwritten hx _, fun hx hi => ?_,
    fun hx hi haddr => ?_⟩
  · have hexec := exec_ldB_ok hx hi haddr
    rw [bcdDigits_eq] at hexec
    have hl (d₁ d₂ d₃ : Byte) : s.index.toNat + [d₁, d₂, d₃].length ≤ 0x1000 := by
      simp only [List.length_cons, List.length_nil]
      omega
    have hat {d₁ d₂ d₃ : Byte} {k : Nat} (hk : k < [d₁, d₂, d₃].length) := storeBytes_peek_at hs (hl d₁ d₂ d₃) hk
    refine ⟨_, hexec, hat (k := 0) (by simp), hat (k := 1) (by simp), hat (k := 2) (by simp), fun a ha => ?_,
      frame_storeBytes s _ _⟩
    exact storeBytes_peek_outside hs (hl _ _ _) (by simp only [List.length_cons, List.length_nil]; omega)
  · exact State.orFault_then_faults (s.readV_written hx) (State.orFault_readI_unwritten hi _)
  · exact State.orFault_then_faults (s.readV_written hx) (State.orFault_then_faults (s.readI_written hi)
      (State.orFault_of_error (checkAddr_error haddr) _))

/-! ### `I` after a register store or load -/

theorem index_add_ofNat (i : Word) (n : Nat) : i + BitVec.ofNat 16 n = BitVec.ofNat 16 (i.toNat + n) := by
  rw [BitVec.ofNat_add, BitVec.ofNat_toNat, BitVec.setWidth_eq]

/-- After a write of bytes or registers, `I` moves past the bytes under `Q_LOADSTORE`, else it stays. -/
theorem advanceI_holdsI {s t : State} {regs : List Reg} {parts : List Part} (h : Frame regs parts s t)
    (hindex : Part.index ∉ parts) (hparams : Part.params ∉ parts) (hi : s.indexWritten = true) (x : Reg) :
    HoldsI (t.advanceI s.index x)
      (if s.qLoadStore then BitVec.ofNat 16 (s.index.toNat + x.val + 1) else s.index) := by
  obtain ⟨hsame, hwritten⟩ := h.2 .index hindex
  have hq : t.qLoadStore = s.qLoadStore := congrArg (fun p : Params => p.quirks.getLsbD 1) (h.2 .params hparams)
  rw [State.advanceI, hq]
  split
  · exact ⟨index_add_ofNat s.index (x.val + 1), rfl⟩
  · exact ⟨hsame, hwritten.trans hi⟩

/-! ### The register store -/

theorem readAll_readV_ok {s : State} {regs : List Reg} (h : ∀ r ∈ regs, s.vWritten[r.val] = true) :
    readAll (regs.map s.readV) = .ok (regs.map fun r => s.v[r.val]) := by
  rw [readAll_ok_iff, List.map_map]
  exact List.map_congr_left fun r hr => s.readV_written (h r hr)

theorem exec_storeRegs_ok {x : Reg} {s : State} (hi : s.indexWritten = true) (haddr : s.index.toNat + x.val ≤ 0xFFF)
    (hregs : ∀ r : Reg, r ≤ x → s.vWritten[r.val] = true) : exec (.storeRegs x) s =
      .next ((s.storeBytes s.index.toNat ((regsUpTo x).map fun r => s.v[r.val])).advanceI s.index x) :=
  ((State.orFault_readI_written hi _).trans (State.orFault_of_ok (checkAddr_ok haddr) _)).trans
    (State.orFault_of_ok (readAll_readV_ok fun r hr => hregs r (mem_regsUpTo.mp hr)) _)

theorem regsUpTo_getElem_eq {x r : Reg} (h : r.val < (regsUpTo x).length) : (regsUpTo x)[r.val] = r :=
  Fin.ext (regsUpTo_getElem h)

/-- Settles O58: register `r` is byte `r` of one store, and the move of `I` after it leaves memory. -/
theorem registerStore : Obligations.RegisterStore := by
  intro x s hs hi haddr hregs
  have hlen : ((regsUpTo x).map fun r => s.v[r.val]).length = x.val + 1 := by rw [List.length_map, regsUpTo_length]
  have hstored := frame_storeBytes s s.index.toNat ((regsUpTo x).map fun r => s.v[r.val])
  have hmoved := frame_advanceI (s.storeBytes s.index.toNat ((regsUpTo x).map fun r => s.v[r.val])) s.index x
  have hpeek := hmoved.2 .memory (by decide)
  refine ⟨_, exec_storeRegs_ok hi haddr hregs, fun r hr => (hpeek _).trans ?_, fun a ha => (hpeek _).trans ?_, ?_,
    ?_⟩
  · have hr' : r.val < (regsUpTo x).length := by rw [regsUpTo_length]; exact Nat.lt_succ_of_le hr
    rw [storeBytes_peek_at hs (by omega) (by rwa [List.length_map]), List.getElem_map, regsUpTo_getElem_eq hr']
  · exact storeBytes_peek_outside hs (by omega) (by omega)
  · exact advanceI_holdsI hstored (by decide) (by decide) hi x
  · exact (hstored.mono (by simp) (by simp)).trans (hmoved.mono (by simp) (by simp))

/-! ### The register load -/

/-- Readable bytes are read. -/
theorem readBytes_of_readable {s : State} {a n : Nat} (h : ∀ k < n, Readable s (a + k)) :
    ∃ l, s.readBytes a n = .ok l := by
  refine ⟨(List.range n).map fun k => (s.peek (a + k)).getD 0, State.readBytes_ok_iff.mpr ⟨by simp, fun k hk => ?_⟩⟩
  obtain ⟨hbound, hwritten⟩ := h k (by simpa using hk)
  obtain ⟨b, hb⟩ := Option.ne_none_iff_exists'.mp hwritten
  simp [hbound, hb]

theorem exec_loadRegs_ok {x : Reg} {s : State} {l : List Byte} (hi : s.indexWritten = true)
    (hbytes : s.readBytes s.index.toNat (x.val + 1) = .ok l) :
    exec (.loadRegs x) s = .next ((s.writeVs ((regsUpTo x).zip l)).advanceI s.index x) :=
  (State.orFault_readI_written hi _).trans (State.orFault_of_ok hbytes _)

/-- Register `r` of `V[0]` to `V[x]` is loaded with byte `r`. -/
theorem writeVs_regsUpTo (s : State) {x r : Reg} {l : List Byte} (hl : l.length = x.val + 1) (hr : r.val < l.length) :
    HoldsV (s.writeVs ((regsUpTo x).zip l)) r l[r.val] := by
  have hlen : (regsUpTo x).length = l.length := by rw [regsUpTo_length, hl]
  refine s.writeVs_mem _ ?_ ?_
  · rw [List.map_fst_zip hlen.le]
    exact regsUpTo_nodup x
  · have hmem := List.getElem_mem (l := (regsUpTo x).zip l) (n := r.val) (by rw [List.length_zip]; omega)
    rwa [List.getElem_zip, regsUpTo_getElem_eq] at hmem

/-- Settles O59: register `r` is byte `r` of the bytes read, and the move of `I` after it leaves the registers. -/
theorem registerLoad : Obligations.RegisterLoad := by
  intro x s hi hreadable
  obtain ⟨l, hread⟩ := readBytes_of_readable (s := s) (a := s.index.toNat) (n := x.val + 1) fun k hk =>
    hreadable ⟨k, by omega⟩ (Nat.le_of_lt_succ hk)
  obtain ⟨hlen, hbytes⟩ := State.readBytes_ok_iff.mp hread
  have hregs := frame_writeVs s (regsUpTo x) l
  have hmoved := frame_advanceI (s.writeVs ((regsUpTo x).zip l)) s.index x
  refine ⟨_, exec_loadRegs_ok hi hread, fun r hr => ?_, ?_, ?_⟩
  · have hr' : r.val < l.length := hlen ▸ Nat.lt_succ_of_le hr
    obtain ⟨hv, hwritten⟩ := writeVs_regsUpTo s hlen hr'
    obtain ⟨hsame, hsame'⟩ := hmoved.1 r (by simp)
    rw [hsame, hsame', hv]
    exact ⟨hwritten, (hbytes r.val hr').2⟩
  · exact advanceI_holdsI hregs (by simp) (by simp) hi x
  · exact (hregs.mono (List.Subset.refl _) (by simp)).trans (hmoved.mono (by simp) (List.Subset.refl _))

/-! ### The faults -/

/-- The first unwritten register is the fault of the store. -/
theorem readAll_readV_first_unwritten {s : State} {x r : Reg} (hr : r ≤ x)
    (hbefore : ∀ q : Reg, q < r → s.vWritten[q.val] = true) (h : s.vWritten[r.val] = false) :
    readAll ((regsUpTo x).map s.readV) = .error (.uninitializedRead (.v r)) := by
  have hread (q : Reg) (hq : q ≤ x) : ((regsUpTo x).map s.readV)[q.val]? = some (s.readV q) := by
    have hlt : q.val < (regsUpTo x).length := by rw [regsUpTo_length]; exact Nat.lt_succ_of_le hq
    rw [List.getElem?_map, List.getElem?_eq_getElem hlt, regsUpTo_getElem_eq hlt, Option.map_some]
  refine readAll_first_error r.val ?_ fun j hj => ?_
  · rw [hread r hr, s.readV_unwritten h]
  · have hq : (⟨j, hj.trans r.isLt⟩ : Reg) < r := hj
    exact ⟨_, by rw [← s.readV_written (hbefore _ hq)]; exact hread _ (hq.le.trans hr)⟩

/-- Settles O60: each fault is the first read or check that fails. -/
theorem registerStoreAndLoadFaults : Obligations.RegisterStoreAndLoadFaults := by
  refine fun x s => ⟨?_, fun hi haddr => ?_, fun r hi haddr hr hbefore h => ?_, fun k hi hk hbefore h => ?_⟩
  · simp only [List.forall_mem_cons, List.not_mem_nil, false_imp_iff, implies_true, and_true]
    exact ⟨fun hi => State.orFault_readI_unwritten hi _, fun hi => State.orFault_readI_unwritten hi _⟩
  · exact State.orFault_then_faults (s.readI_written hi) (State.orFault_of_error (checkAddr_error haddr) _)
  · exact State.orFault_then_faults (s.readI_written hi) (State.orFault_then_faults (checkAddr_ok haddr)
      (State.orFault_of_error (readAll_readV_first_unwritten hr hbefore h) _))
  · exact State.orFault_then_faults (s.readI_written hi)
      (State.orFault_of_error (State.readBytes_first_fault (Nat.lt_succ_of_le hk) hbefore h) _)

end Sys2Proof.Machine
end

section
/-! No rule reads `Q_DISPSYNC` (10_state.md R33, decision D3): the step commutes with inverting it. -/

namespace Sys2Proof.Machine

/-! ### What inverting the bit leaves -/

theorem flipDispSync_quirk (s : State) {k : Nat} (hk : k ≠ 4) :
    (flipDispSync s).params.quirks.getLsbD k = s.params.quirks.getLsbD k := by
  have hbit : (0x10#6).getLsbD k = false := by
    rw [show (0x10#6) = BitVec.twoPow 6 4 from rfl, BitVec.getLsbD_twoPow]
    simp [hk.symm]
  rw [flipDispSync, BitVec.getLsbD_xor, hbit, Bool.xor_false]

@[simp] theorem flipDispSync_qShift (s : State) : (flipDispSync s).qShift = s.qShift :=
  flipDispSync_quirk s (by decide)

@[simp] theorem flipDispSync_qLoadStore (s : State) : (flipDispSync s).qLoadStore = s.qLoadStore :=
  flipDispSync_quirk s (by decide)

@[simp] theorem flipDispSync_qJump (s : State) : (flipDispSync s).qJump = s.qJump :=
  flipDispSync_quirk s (by decide)

@[simp] theorem flipDispSync_qLogic (s : State) : (flipDispSync s).qLogic = s.qLogic :=
  flipDispSync_quirk s (by decide)

@[simp] theorem flipDispSync_qClip (s : State) : (flipDispSync s).qClip = s.qClip :=
  flipDispSync_quirk s (by decide)

/-! ### Writes commute with inverting the bit -/

theorem writeVs_flipDispSync (s : State) (l : List (Reg × Byte)) :
    (flipDispSync s).writeVs l = flipDispSync (s.writeVs l) := by
  induction l generalizing s with
  | nil => rfl
  | cons c l ih => exact ih (s.writeV c.1 c.2)

theorem storeBytes_flipDispSync (s : State) (a : Nat) (l : List Byte) :
    (flipDispSync s).storeBytes a l = flipDispSync (s.storeBytes a l) := by
  induction l generalizing s a with
  | nil => rfl
  | cons b l ih => exact ih (s.storeByte a b) (a + 1)

theorem logicFlag_flipDispSync (s : State) : (flipDispSync s).logicFlag = flipDispSync s.logicFlag := by
  rw [State.logicFlag, flipDispSync_qLogic, State.logicFlag, apply_ite flipDispSync]
  rfl

theorem advanceI_flipDispSync (s : State) (a : Word) (x : Reg) :
    (flipDispSync s).advanceI a x = flipDispSync (s.advanceI a x) := by
  rw [State.advanceI, flipDispSync_qLoadStore, State.advanceI, apply_ite flipDispSync]
  rfl

theorem waitBody_flipDispSync (s : State) (x : Reg) : (flipDispSync s).waitBody x = flipDispSync (s.waitBody x) := by
  rcases firstTransition_cases s with ⟨k, -, hk⟩ | ⟨-, hsame⟩
  · rw [waitBody_of_transition hk, waitBody_of_transition (s := flipDispSync s) hk]
    rfl
  · rw [waitBody_of_no_transition hsame, waitBody_of_no_transition (s := flipDispSync s) hsame]
    rfl

theorem settle_flipDispSync (s t : State) :
    (flipDispSync s).settle (flipDispSync t) = flipDispSync (s.settle t) := by
  cases ht : t.fault with
  | none => rw [s.settle_ok ht, State.settle_ok _ (t := flipDispSync t) ht]; rfl
  | some f => rw [s.settle_fault ht, State.settle_fault _ (t := flipDispSync t) ht]; rfl

/-! ### The execution and the step -/

/-- Reads do not see the bit, so a read goes on the same way. -/
theorem orFault_flipDispSync {α : Type} {s : State} {e : Except FaultReason α} {k k' : α → Result}
    (h : ∀ a, k' a = mapNext flipDispSync (k a)) :
    (flipDispSync s).orFault e k' = mapNext flipDispSync (s.orFault e k) := by
  cases e with
  | ok a => exact h a
  | error r => rfl

/-- Every instruction commutes with inverting the bit. -/
theorem exec_flipDispSync (i : Instr) (s : State) :
    exec i (flipDispSync s) = mapNext flipDispSync (exec i s) := by
  cases i with
  | cls | jp | ldImm | rnd | ldVxDt | ldI => rfl
  | ldVxK x => exact congrArg Host.Outcome.next (waitBody_flipDispSync s x)
  | ret | call | seImm | sneImm | addImm | ldReg | ldDtVx | ldStVx => exact orFault_flipDispSync fun _ => rfl
  | jpV0 x =>
    rw [exec_jpV0, execJpV0, State.jumpReg, flipDispSync_qJump]
    exact orFault_flipDispSync fun _ => rfl
  | shr x y =>
    rw [exec_shr, execShr, State.shiftReg, flipDispSync_qShift]
    exact orFault_flipDispSync fun _ => rfl
  | shl x y =>
    rw [exec_shl, execShl, State.shiftReg, flipDispSync_qShift]
    exact orFault_flipDispSync fun _ => rfl
  | seReg | sneReg | addReg | subReg | subnReg | skp | sknp | addI | ldF =>
    exact orFault_flipDispSync fun _ => orFault_flipDispSync fun _ => rfl
  | orReg x | andReg x | xorReg x =>
    exact orFault_flipDispSync fun _ => orFault_flipDispSync fun _ =>
      congrArg Host.Outcome.next (logicFlag_flipDispSync (s.writeV x _))
  | drw x y n =>
    rw [exec_drw, execDrw, flipDispSync_qClip]
    exact orFault_flipDispSync fun _ => orFault_flipDispSync fun _ => orFault_flipDispSync fun _ => rfl
  | ldB =>
    exact orFault_flipDispSync fun _ => orFault_flipDispSync fun _ => orFault_flipDispSync fun _ =>
      congrArg Host.Outcome.next (storeBytes_flipDispSync s _ _)
  | storeRegs x =>
    refine orFault_flipDispSync fun _ => orFault_flipDispSync fun _ => orFault_flipDispSync fun _ =>
      congrArg Host.Outcome.next ?_
    rw [storeBytes_flipDispSync, advanceI_flipDispSync]
  | loadRegs x =>
    refine orFault_flipDispSync fun _ => orFault_flipDispSync fun _ => congrArg Host.Outcome.next ?_
    rw [writeVs_flipDispSync, advanceI_flipDispSync]

theorem settleResult_flipDispSync (s : State) (res : Result) :
    settleResult (flipDispSync s) (mapNext flipDispSync res) = mapNext flipDispSync (settleResult s res) := by
  cases res with
  | next t => exact congrArg Host.Outcome.next (settle_flipDispSync s t)
  | fault | refused => rfl

/-- Settles O25: phase by phase, both blocks take the same branch. -/
theorem dispSyncBitHasNoEffect : Obligations.DispSyncBitHasNoEffect := by
  intro s
  cases hf : s.fault with
  | some f => rw [step_faulted hf, step_faulted (s := flipDispSync s) hf]; rfl
  | none =>
    cases hm : s.mode with
    | waitingForKey =>
      rw [step_waiting hf hm, step_waiting (s := flipDispSync s) hf hm]
      exact congrArg (fun t => Host.Outcome.next t.finish) (waitBody_flipDispSync s.latchKeys (opX s.op))
    | ready =>
      cases hfetch : s.fetchOp with
      | error r =>
        rw [step_fetch_fault hf hm hfetch, step_fetch_fault (s := flipDispSync s) hf hm hfetch]
        rfl
      | ok op =>
        cases hdecode : decodeWord op with
        | none =>
          rw [step_unimplemented hf hm hfetch hdecode, step_unimplemented (s := flipDispSync s) hf hm hfetch hdecode]
          rfl
        | some i =>
          rw [step_exec hf hm hfetch hdecode, step_exec (s := flipDispSync s) hf hm hfetch hdecode,
            ← settleResult_flipDispSync, ← exec_flipDispSync]
          rfl

end Sys2Proof.Machine
end
